-- ==== Sys2Proof/Word.lean ====
section
/-! DEFINITION. The word and the byte of the block: rule R8 (bit 0 is the least significant bit, every
value an unsigned integer of a stated width). All of the block's formats are 64 bits wide (rule R80). -/

namespace Sys2Proof

/-- A 64-bit value: a virtual address, a table base, an entry or a physical address (rules R80, R189). -/
abbrev Word := BitVec 64

/-- The unit of physical memory out of which an entry is assembled (rule R52). -/
abbrev Byte := BitVec 8

end Sys2Proof
end

