-- ==== Sys2Proof/Config.lean ====
section
/-! DEFINITION. What the source fixes as constants (rule R6) and the parameters it leaves open (rule R7).
`NONCANONICAL_POLICY` is a field of State, so that every statement holds for both of its values; its default
is here. `HostReadError` is a plain value that the block carries and never inspects. -/

namespace Sys2Proof

/-- `NONCANONICAL_POLICY` (rules R7, R253; 92_eei_decisions.md D4): what happens to a virtual address whose
bits 63:48 are not copies of bit 47. -/
inductive NoncanonicalPolicy where
  /-- Bits 63:48 are ignored; the canonical test is not made. -/
  | truncate
  /-- Such a request is answered with `Failed(InvalidInput)` before any read. -/
  | reject
deriving DecidableEq, Repr

/-- `HostReadError`, an open type parameter (rule R7, 92_eei_decisions.md D16). DESIGN CHOICE, log entry 3: the
host's error value is held as a natural number, which can carry the elements of any countable type; the
one-element default of the spec is the number 0 alone. No rule inspects it. -/
structure HostReadError where
  code : Nat
deriving DecidableEq, Repr

namespace Config

/-- The default of `NONCANONICAL_POLICY`: `truncate` (rule R7). -/
def defaultPolicy : NoncanonicalPolicy := .truncate

/-- `MAX_READS`: at most 4 reads in one translation (rule R6). -/
def maxReads : Nat := 4

/-- `ENTRY_BYTES`: an entry is a 64-bit value (rule R6). -/
def entryBytes : Nat := 8

/-- The bytes of one table, `ENTRIES_PER_TABLE * ENTRY_BYTES = 4096` (rule R6). -/
def tableBytes : Nat := 4096

/-- `PA_WIDTH`: every address the block issues or returns is below `2^52` (rule R7, D15). -/
def paWidth : Nat := 52

end Config

end Sys2Proof
end

