-- ==== Sys2Proof/Syntax.lean ====
section
/-! DEFINITION. The operations of the block, one constructor of `Instr` per row of spec/opcode_table.json:
the ten kinds of paging-structure entry (rule R100), the one request `TRANSLATE` (rule R230) and the functions
of the three sub-blocks (rule R101). An entry kind keeps the whole 64-bit entry as its operand, since the trace
reports all of it (rules R28, R210 to R219: "Operands of every rule: `raw`, `va`"). -/

namespace Sys2Proof

/-- One of the four table levels, in walk order (rule R87). -/
inductive Level where
  | pml4 | pdpt | pd | pt
deriving DecidableEq, Repr

/-- The answer to one read: `Ok(v)` or `Err(e)` (rules R50, R51, R93). -/
inductive ReadAnswer where
  | ok (v : Word)
  | err (e : HostReadError)
deriving DecidableEq, Repr

/-- The reader that comes with a request (rules R67, R91), as plain data. DESIGN CHOICE, log entry 2. -/
inductive Reader where
  /-- The finite-map reader of rule R67 over the memory of the state: `Ok` where all eight bytes are present,
  `Err(missing)` otherwise. -/
  | memory (missing : HostReadError)
  /-- The oracle of rule R67: the answers it gives to the reads of this translation, first one first. A read for
  which no answer is left is never answered (rule R51). -/
  | script (answers : List ReadAnswer)
deriving DecidableEq, Repr

/-- The ten entry kinds of rule R100. -/
inductive EntryKind where
  | pml4eNp | pml4eTable
  | pdpteNp | pdptePage1g | pdpteTable
  | pdeNp | pdePage2m | pdeTable
  | pteNp | ptePage4k
deriving DecidableEq, Repr

/-- The operations of the block: the rows of spec/opcode_table.json, in its order. -/
inductive Instr where
  -- the ten entry kinds; the operand is the fetched entry
  | pml4eNp (raw : Word)
  | pml4eTable (raw : Word)
  | pdpteNp (raw : Word)
  | pdptePage1g (raw : Word)
  | pdpteTable (raw : Word)
  | pdeNp (raw : Word)
  | pdePage2m (raw : Word)
  | pdeTable (raw : Word)
  | pteNp (raw : Word)
  | ptePage4k (raw : Word)
  -- the one request
  | translate (va tb : Word) (reader : Reader)
  -- va_index_extractor
  | pml4Index (va : Word)
  | pdptIndex (va : Word)
  | pdIndex (va : Word)
  | ptIndex (va : Word)
  | pageOffset (va : Word)
  | decompose (va : Word)
  | isCanonical (va : Word)
  -- pte_decoder_and_validator
  | present (raw : Word)
  | writable (raw : Word)
  | user (raw : Word)
  | pageSize (raw : Word)
  | physicalBase (raw : Word)
  | decodeEntry (raw : Word)
  | classify (level : Level) (raw : Word)
  -- physical_address_composer
  | rootBase (tb : Word)
  | nextBase (raw : Word)
  | entryAddr (base : Word) (index : BitVec 9)
  | base2m (raw : Word)
  | base1g (raw : Word)
  | offset2m (va : Word)
  | offset1g (va : Word)
  | compose4k (raw va : Word)
  | compose2m (raw va : Word)
  | compose1g (raw va : Word)
deriving DecidableEq, Repr

/-- The operation that a fetched entry of a kind stands for (rule R5, "instruction word"). -/
def EntryKind.instr : EntryKind → Word → Instr
  | .pml4eNp, raw => .pml4eNp raw
  | .pml4eTable, raw => .pml4eTable raw
  | .pdpteNp, raw => .pdpteNp raw
  | .pdptePage1g, raw => .pdptePage1g raw
  | .pdpteTable, raw => .pdpteTable raw
  | .pdeNp, raw => .pdeNp raw
  | .pdePage2m, raw => .pdePage2m raw
  | .pdeTable, raw => .pdeTable raw
  | .pteNp, raw => .pteNp raw
  | .ptePage4k, raw => .ptePage4k raw

end Sys2Proof
end

