-- ==== Sys2Proof/WellFormed.lean ====
section
/-! DEFINITION. Which operand values an operation has: an entry of a kind carries the bits that select that kind
(the entry map of rule R100), and a function whose rule restricts its operand gets such an operand. -/

namespace Sys2Proof

/-- The level at which an entry of a kind is fetched: column `level` of rule R100. -/
def EntryKind.level : EntryKind → Level
  | .pml4eNp | .pml4eTable => .pml4
  | .pdpteNp | .pdptePage1g | .pdpteTable => .pdpt
  | .pdeNp | .pdePage2m | .pdeTable => .pd
  | .pteNp | .ptePage4k => .pt

/-- Column `mask` of rule R100. -/
def EntryKind.mask : EntryKind → Word
  | .pml4eNp | .pml4eTable => 0x01#64
  | .pdpteNp => 0x01#64
  | .pdptePage1g | .pdpteTable => 0x81#64
  | .pdeNp => 0x01#64
  | .pdePage2m | .pdeTable => 0x81#64
  | .pteNp | .ptePage4k => 0x01#64

/-- Column `match` of rule R100. -/
def EntryKind.matchBits : EntryKind → Word
  | .pml4eNp => 0x00#64
  | .pml4eTable => 0x01#64
  | .pdpteNp => 0x00#64
  | .pdptePage1g => 0x81#64
  | .pdpteTable => 0x01#64
  | .pdeNp => 0x00#64
  | .pdePage2m => 0x81#64
  | .pdeTable => 0x01#64
  | .pteNp => 0x00#64
  | .ptePage4k => 0x01#64

/-- `raw & mask = match`: the entry has the bits that select the kind (rule R100). -/
def EntryKind.admits (k : EntryKind) (raw : Word) : Bool :=
  raw &&& k.mask == k.matchBits

/-- Every kind of rule R100, in its order. -/
def EntryKind.all : List EntryKind :=
  [.pml4eNp, .pml4eTable, .pdpteNp, .pdptePage1g, .pdpteTable, .pdeNp, .pdePage2m, .pdeTable, .pteNp, .ptePage4k]

/-- The operands an operation is given. The operand clauses of `nextBase`, `entryAddr`, `base2m`, `base1g` and the
three compositions are those of rules R172, R173 (with R171), R174, R175 and R178 to R180; every other operation takes
every value of its operands (log entry 20). -/
def Instr.wellFormed : Instr → Bool
  | .pml4eNp raw => EntryKind.pml4eNp.admits raw
  | .pml4eTable raw => EntryKind.pml4eTable.admits raw
  | .pdpteNp raw => EntryKind.pdpteNp.admits raw
  | .pdptePage1g raw => EntryKind.pdptePage1g.admits raw
  | .pdpteTable raw => EntryKind.pdpteTable.admits raw
  | .pdeNp raw => EntryKind.pdeNp.admits raw
  | .pdePage2m raw => EntryKind.pdePage2m.admits raw
  | .pdeTable raw => EntryKind.pdeTable.admits raw
  | .pteNp raw => EntryKind.pteNp.admits raw
  | .ptePage4k raw => EntryKind.ptePage4k.admits raw
  | .translate _ _ _ => true
  | .pml4Index _ => true
  | .pdptIndex _ => true
  | .pdIndex _ => true
  | .ptIndex _ => true
  | .pageOffset _ => true
  | .decompose _ => true
  | .isCanonical _ => true
  | .present _ => true
  | .writable _ => true
  | .user _ => true
  | .pageSize _ => true
  | .physicalBase _ => true
  | .decodeEntry _ => true
  | .classify _ _ => true
  | .rootBase _ => true
  | .nextBase raw =>
    EntryKind.pml4eTable.admits raw || EntryKind.pdpteTable.admits raw || EntryKind.pdeTable.admits raw
  | .entryAddr base _ => base &&& 0x000FFFFFFFFFF000#64 == base
  | .base2m raw => EntryKind.pdePage2m.admits raw
  | .base1g raw => EntryKind.pdptePage1g.admits raw
  | .offset2m _ => true
  | .offset1g _ => true
  | .compose4k raw _ => EntryKind.ptePage4k.admits raw
  | .compose2m raw _ => EntryKind.pdePage2m.admits raw
  | .compose1g raw _ => EntryKind.pdptePage1g.admits raw

end Sys2Proof
end

