-- ==== Sys2Proof/Decode.lean ====
section
/-! DEFINITION. From the level and the 64 bits of a fetched entry to the operation it stands for, and back
(rules R95, R100). An entry does not encode its level: the decoder takes it, as rule R95 says. The request and the
functions have no encoding (rule R101), so the encoder answers `none` for them. -/

namespace Sys2Proof

/-- The operation of an entry fetched at a level: rule R100, each test `raw & mask = match` of its table, the last row
of a level taking what the rows before it leave. -/
def decode (level : Level) (raw : Word) : Instr :=
  match level with
  | .pml4 => if raw &&& 0x01#64 = 0x00#64 then .pml4eNp raw else .pml4eTable raw
  | .pdpt =>
    if raw &&& 0x01#64 = 0x00#64 then .pdpteNp raw
    else if raw &&& 0x81#64 = 0x81#64 then .pdptePage1g raw
    else .pdpteTable raw
  | .pd =>
    if raw &&& 0x01#64 = 0x00#64 then .pdeNp raw
    else if raw &&& 0x81#64 = 0x81#64 then .pdePage2m raw
    else .pdeTable raw
  | .pt => if raw &&& 0x01#64 = 0x00#64 then .pteNp raw else .ptePage4k raw

/-- The 64-bit value of eight bytes, the byte at the lowest address first and in bits 7:0 (rule R52). -/
def qwordOfBytes (b0 b1 b2 b3 b4 b5 b6 b7 : Byte) : Word :=
  b7 ++ b6 ++ b5 ++ b4 ++ b3 ++ b2 ++ b1 ++ b0

/-- Byte `i` of a 64-bit value, bits `8*i+7 : 8*i` (rule R52). -/
def byteOfQword (v : Word) (i : Nat) : Byte := v.extractLsb' (8 * i) 8

/-- The eight bytes of a 64-bit value, the one of the lowest address first (rule R52). -/
def bytesOfQword (v : Word) : List Byte :=
  [byteOfQword v 0, byteOfQword v 1, byteOfQword v 2, byteOfQword v 3,
   byteOfQword v 4, byteOfQword v 5, byteOfQword v 6, byteOfQword v 7]

/-- Why bytes are not an entry. Every 64-bit value is one at every level (rule R96), so too few bytes is all. -/
inductive DecodeError where
  /-- Fewer than the eight bytes of an entry (rule R80); `got` is how many there were. -/
  | truncatedEntry (got : Nat)
deriving DecidableEq, Repr

/-- What the decoder reads from bytes: an operation and the bytes after it, or a rejection by name. -/
inductive Decoded where
  | entry (i : Instr) (rest : List Byte)
  | rejected (e : DecodeError)
deriving DecidableEq, Repr

/-- The decoder on bytes in address order (rules R52, R80, R95). -/
def decodeBytes (level : Level) : List Byte → Decoded
  | b0 :: b1 :: b2 :: b3 :: b4 :: b5 :: b6 :: b7 :: rest =>
    .entry (decode level (qwordOfBytes b0 b1 b2 b3 b4 b5 b6 b7)) rest
  | bytes => .rejected (.truncatedEntry bytes.length)

/-- The level and the 64 bits of an entry kind (rule R100); `none` for what has no encoding (rule R101). -/
def encode : Instr → Option (Level × Word)
  | .pml4eNp raw => some (.pml4, raw)
  | .pml4eTable raw => some (.pml4, raw)
  | .pdpteNp raw => some (.pdpt, raw)
  | .pdptePage1g raw => some (.pdpt, raw)
  | .pdpteTable raw => some (.pdpt, raw)
  | .pdeNp raw => some (.pd, raw)
  | .pdePage2m raw => some (.pd, raw)
  | .pdeTable raw => some (.pd, raw)
  | .pteNp raw => some (.pt, raw)
  | .ptePage4k raw => some (.pt, raw)
  | .translate _ _ _ => none
  | .pml4Index _ => none
  | .pdptIndex _ => none
  | .pdIndex _ => none
  | .ptIndex _ => none
  | .pageOffset _ => none
  | .decompose _ => none
  | .isCanonical _ => none
  | .present _ => none
  | .writable _ => none
  | .user _ => none
  | .pageSize _ => none
  | .physicalBase _ => none
  | .decodeEntry _ => none
  | .classify _ _ => none
  | .rootBase _ => none
  | .nextBase _ => none
  | .entryAddr _ _ => none
  | .base2m _ => none
  | .base1g _ => none
  | .offset2m _ => none
  | .offset1g _ => none
  | .compose4k _ _ => none
  | .compose2m _ _ => none
  | .compose1g _ _ => none

/-- An entry assembled from the fields of format ENT (rule R83): bits 63:52 ignored, 51:12 the physical base,
11:8 ignored, 7 page size, 6:3 ignored, 2 user, 1 writable, 0 present. -/
def entryOfFields (high : BitVec 12) (base : BitVec 40) (mid : BitVec 4) (pageSize : BitVec 1) (low : BitVec 4)
    (user writable present : BitVec 1) : Word :=
  high ++ base ++ mid ++ pageSize ++ low ++ user ++ writable ++ present

/-- The entry whose `nbits` low bits are those of `w`, the bits above them zero. -/
def entryOfTableWord (nbits w : Nat) : Word := BitVec.ofNat 64 (w % 2 ^ nbits)

/-- What the decoder reads from an entry with the bits `w`, fetched where the first entry after reset is fetched, at
PML4 (rule R24). The opcode table gives no bits to the level (rule R95); DESIGN CHOICE, log entry 8. -/
def decodeTableWord (nbits w : Nat) : Option Instr :=
  match decodeBytes .pml4 (bytesOfQword (entryOfTableWord nbits w)) with
  | .entry i _ => some i
  | .rejected _ => none

end Sys2Proof
end

