-- ==== Sys2Proof/Machine/State.lean ====
section
/-! DEFINITION. The state of the block as plain data. The walker is the sum type of rule R35: each constructor carries
exactly the registers that hold a value in that state (rules R21, R23; log entry 11), so no register is ever read
without a value.
Beside it stand what the host owns and the block reaches: physical memory behind the reader, the host's moves to come,
the history of reads (rule R67), the policy parameter (rule R7), and the output of the combinational functions. -/

namespace Sys2Proof.Machine

open Sys2Proof

/-- The decoded entry (rules R28, R35, R145). -/
structure Entry where
  present : Bool
  writable : Bool
  user : Bool
  pageSize : Bool
  physicalBase : Word
deriving DecidableEq, Repr

/-- A walk step, format STEP (rules R28, R90). -/
structure WalkStep where
  level : Level
  table : Word
  index : BitVec 9
  raw : Word
  entry : Entry
deriving DecidableEq, Repr

/-- The five fields of a virtual address (rules R81, R125). -/
structure VaFields where
  pml4Index : BitVec 9
  pdptIndex : BitVec 9
  pdIndex : BitVec 9
  ptIndex : BitVec 9
  pageOffset : BitVec 12
deriving DecidableEq, Repr

/-- The failure kinds (rules R88, R250). The third exists only under `NONCANONICAL_POLICY = reject`. -/
inductive FailKind where
  | notPresent | readFailure | invalidInput
deriving DecidableEq, Repr

/-- Format REQ (rule R91): the operands and the reader of one translation. -/
structure Request where
  va : Word
  tb : Word
  reader : Reader
deriving DecidableEq, Repr

/-- The registers of a walk in progress (rules R22, R35): the operands, the borrowed reader (rules R61, R69), the base of
the table to be consulted next (just consulted, in `atPml4`) and the trace. -/
structure Walk where
  va : Word
  tb : Word
  reader : Reader
  tbl : Word
  steps : List WalkStep
deriving DecidableEq, Repr

/-- The walker state `st` with the registers that hold a value in it (rules R21, R35). -/
inductive Walker where
  /-- `Start`. `taken` is `none` when no translation is in progress (a request may be accepted), and the request taken
  when the read of its PML4 entry is not answered (rule R303, "`Start` with the request taken"; log entry 12). -/
  | start (taken : Option Request)
  /-- The PML4 entry has been read and recorded, not yet tested. -/
  | atPml4 (w : Walk) (raw : Word)
  /-- The PML4 entry was present; the PDPT entry has not been read. -/
  | atPdpt (w : Walk)
  /-- The PDPT entry was present and not huge; the PD entry has not been read. -/
  | atPd (w : Walk)
  /-- The PD entry was present and not huge; the PT entry has not been read. -/
  | atPt (w : Walk)
  /-- Terminal: `res_pa` and the trace (rule R30). -/
  | resolved (va tb : Word) (resPa : Word) (steps : List WalkStep)
  /-- Terminal: `fail_kind`, `fail_level`, `fail_raw`, `fail_err` and the trace (rule R31). -/
  | failed (va tb : Word) (kind : FailKind) (level : Option Level) (raw : Option Word) (err : Option HostReadError)
      (steps : List WalkStep)
deriving DecidableEq, Repr

/-- One read of the history (rules R67, R93): the address sent and the answer got. -/
structure ReadEvent where
  addr : Word
  answer : ReadAnswer
deriving DecidableEq, Repr

/-- A move of the host or of another agent of its platform (rules R201, R304): what reaches the block before its next
step. DESIGN CHOICE, log entry 1. -/
inductive HostInput where
  /-- The host makes no move (`none` of rule R201). -/
  | idle
  /-- A request is presented (rules R202, R305). -/
  | request (r : Request)
  /-- The host has taken the result (rule R306). -/
  | retire
  /-- Reset (rules R34, R290). -/
  | reset
  /-- Another agent writes one byte of physical memory (rules R66, R301, R304; log entry 14). -/
  | store (addr : Word) (byte : Byte)
  /-- One byte of physical memory becomes inaccessible to the reader (rules R50, R252). -/
  | unmap (addr : Word)
deriving DecidableEq, Repr

/-- The value a combinational function drives on its output (rules R101, R120 to R127, R140 to R148, R170 to R180). -/
inductive FnResult where
  | bit (b : Bool)
  | index (i : BitVec 9)
  | pageOffset (o : BitVec 12)
  | offset2m (o : BitVec 21)
  | offset1g (o : BitVec 30)
  | fields (f : VaFields)
  | entry (e : Entry)
  | kind (k : EntryKind)
  | address (a : Word)
deriving DecidableEq, Repr

/-- The result of a translation, formats REPORT and ERROR (rules R30, R31, R92). -/
inductive TranslationResult where
  | report (physicalAddress : Word) (steps : List WalkStep)
  | error (kind : FailKind) (level : Option Level) (stepsSoFar : List WalkStep) (raw : Option Word)
      (err : Option HostReadError)
deriving DecidableEq, Repr

/-- Physical memory as the finite-map reader sees it: the bytes present, by strictly rising address. An address that is
not listed is not readable (rules R67, R98; log entry 9). -/
abbrev Memory := List Host.Cell

/-- The whole state. -/
structure State where
  /-- The walker and its registers (rules R21, R22, R35). -/
  walker : Walker
  /-- `NONCANONICAL_POLICY` (rule R7); nothing writes it (log entry 10). -/
  policy : NoncanonicalPolicy
  /-- Physical memory (rules R32, R67). -/
  mem : Memory
  /-- The host's moves to come, the next one first; when none is left the host makes no move. -/
  inputs : List HostInput
  /-- The reads of the current translation, in order (rules R60, R67; log entry 13). -/
  reads : List ReadEvent
  /-- What the function evaluated last drives on its output; `none` before any is evaluated. The model's own,
  log entry 4. -/
  out : Option FnResult
deriving DecidableEq, Repr

/-- The block after reset (rules R34, R290): `Start`, empty trace, no register with a value; memory with nothing
listed and no move of the host to come. -/
def State.reset : State :=
  { walker := .start none, policy := Config.defaultPolicy, mem := [], inputs := [], reads := [], out := none }

/-- Faults of the machine: none. Every virtual address, table base and entry has a defined outcome (rule R15), a
`Failed` translation is an ordinary result (rule R273), and a read that is never answered leaves the walker where it
is (rule R51). -/
inductive Fault where
deriving DecidableEq, Repr

/-- Why an operation has no meaning in a state. -/
inductive Refusal where
  /-- Raised by no arm of `exec`: every operation has its meaning. Safe. -/
  | notModelled (mnemonic : String)
  /-- Raised by the meaning of an entry kind when the walker is not at the level of that kind: an entry is executed
  only as it is fetched, at the level that selects its meaning (rules R5, R95, R203 to R206). No step of the machine
  raises it. Safe. -/
  | entryOutOfPlace
deriving DecidableEq, Repr

end Sys2Proof.Machine
end

