-- ==== Sys2Proof/Machine/Flags.lean ====
section
/-! DEFINITION. The block has no condition codes and no status flags; its only flag-like values are the four decoded
bits of an entry, recomputed from it whenever needed (rule R27). -/

namespace Sys2Proof.Machine

open Sys2Proof

/-- `PRESENT(raw)` is bit 0 (rule R140). -/
def present (raw : Word) : Bool := raw.getLsbD 0

/-- `WRITABLE(raw)` is bit 1 (rule R141). -/
def writable (raw : Word) : Bool := raw.getLsbD 1

/-- `USER(raw)` is bit 2 (rule R142). -/
def user (raw : Word) : Bool := raw.getLsbD 2

/-- `PAGE_SIZE(raw)` is bit 7 (rule R143). -/
def pageSize (raw : Word) : Bool := raw.getLsbD 7

end Sys2Proof.Machine
end

