-- ==== Sys2Proof/Machine/Operands.lean ====
section
/-! DEFINITION. How every operand and address is put together from bits (rule R94): the fields of a virtual address
(40_va_index_extractor.md), the decoded entry and its kind (41_pte_decoder_and_validator.md), and all address
arithmetic (42_physical_address_composer.md). Each is a pure function of its operands. -/

namespace Sys2Proof.Machine

open Sys2Proof

/-- `PHYS_BASE_MASK`, bits 51:12 (rules R7, R82, R99; the spec's own decision D3, log entry 6). -/
def physBaseMask : Word := 0x000FFFFFFFFFF000#64

/-- `BASE_2M_MASK`, bits 51:21 (rule R99). -/
def base2mMask : Word := 0x000FFFFFFFE00000#64

/-- `BASE_1G_MASK`, bits 51:30 (rule R99). -/
def base1gMask : Word := 0x000FFFFFC0000000#64

/-- `PML4_INDEX(va) = va[47:39]` (rule R120). -/
def pml4Index (va : Word) : BitVec 9 := va.extractLsb' 39 9

/-- `PDPT_INDEX(va) = va[38:30]` (rule R121). -/
def pdptIndex (va : Word) : BitVec 9 := va.extractLsb' 30 9

/-- `PD_INDEX(va) = va[29:21]` (rule R122). -/
def pdIndex (va : Word) : BitVec 9 := va.extractLsb' 21 9

/-- `PT_INDEX(va) = va[20:12]` (rule R123). -/
def ptIndex (va : Word) : BitVec 9 := va.extractLsb' 12 9

/-- `PAGE_OFFSET(va) = va[11:0]` (rule R124). -/
def pageOffset (va : Word) : BitVec 12 := va.extractLsb' 0 12

/-- The index the walk uses at a level (rule R24). -/
def indexAt (level : Level) (va : Word) : BitVec 9 :=
  match level with
  | .pml4 => pml4Index va
  | .pdpt => pdptIndex va
  | .pd => pdIndex va
  | .pt => ptIndex va

/-- `DECOMPOSE(va)` (rule R125). -/
def decompose (va : Word) : VaFields :=
  { pml4Index := pml4Index va, pdptIndex := pdptIndex va, pdIndex := pdIndex va, ptIndex := ptIndex va,
    pageOffset := pageOffset va }

/-- `IS_CANONICAL(va)`: `va = sext_64(va[47:0])` (rule R127). -/
def isCanonical (va : Word) : Bool := va == (va.extractLsb' 0 48).signExtend 64

/-- `PHYSICAL_BASE(raw)` (rule R144). -/
def physicalBase (raw : Word) : Word := raw &&& physBaseMask

/-- `DECODE(raw)` (rule R145). -/
def decodeEntry (raw : Word) : Entry :=
  { present := present raw, writable := writable raw, user := user raw, pageSize := pageSize raw,
    physicalBase := physicalBase raw }

/-- `CLASSIFY(level, raw)`: presence first, then the page size at PDPT and PD only (rules R148 to R150). -/
def classify (level : Level) (raw : Word) : EntryKind :=
  let e := decodeEntry raw
  if e.present = false then
    match level with
    | .pml4 => .pml4eNp
    | .pdpt => .pdpteNp
    | .pd => .pdeNp
    | .pt => .pteNp
  else
    match level with
    | .pml4 => .pml4eTable
    | .pdpt => if e.pageSize = true then .pdptePage1g else .pdpteTable
    | .pd => if e.pageSize = true then .pdePage2m else .pdeTable
    | .pt => .ptePage4k

/-- `ROOT_BASE(tb)` (rule R170). -/
def rootBase (tb : Word) : Word := tb &&& physBaseMask

/-- `NEXT_BASE(raw)` (rule R172). -/
def nextBase (raw : Word) : Word := physicalBase raw

/-- `ENTRY_ADDR(base, index) = base + index * 8` (rule R173). -/
def entryAddr (base : Word) (index : BitVec 9) : Word := base + index.setWidth 64 * 8#64

/-- `BASE_2M(raw)` (rule R174). -/
def base2m (raw : Word) : Word := raw &&& base2mMask

/-- `BASE_1G(raw)` (rule R175). -/
def base1g (raw : Word) : Word := raw &&& base1gMask

/-- `OFFSET_2M(va) = va[20:0]` (rule R176). -/
def offset2m (va : Word) : BitVec 21 := va.extractLsb' 0 21

/-- `OFFSET_1G(va) = va[29:0]` (rule R177). -/
def offset1g (va : Word) : BitVec 30 := va.extractLsb' 0 30

/-- `COMPOSE_4K(raw, va)` (rule R178). -/
def compose4k (raw va : Word) : Word := physicalBase raw + (pageOffset va).setWidth 64

/-- `COMPOSE_2M(raw, va)` (rule R179). -/
def compose2m (raw va : Word) : Word := base2m raw + (offset2m va).setWidth 64

/-- `COMPOSE_1G(raw, va)` (rule R180). -/
def compose1g (raw va : Word) : Word := base1g raw + (offset1g va).setWidth 64

/-- The walk step that records an entry read at a level (rules R28, R207). -/
def walkStepOf (level : Level) (table : Word) (index : BitVec 9) (raw : Word) : WalkStep :=
  { level := level, table := table, index := index, raw := raw, entry := decodeEntry raw }

end Sys2Proof.Machine
end

