-- ==== Sys2Proof/Machine/Ops.lean ====
section
/-! DEFINITION. The named operations over memory and registers: the finite map of bytes and its reader, `FETCH`
(rule R207), entering `Failed` and `Resolved` (rules R256, R30), accepting a request (rules R202, R305), leaving a
terminal state (rule R306), reset (rules R34, R290), the entry the walker executes next (rules R201 to R206), and the
result the host receives (rules R30, R31, R92). -/

namespace Sys2Proof.Machine

open Sys2Proof

/-- Write the walker and its registers. -/
def State.setWalker (s : State) (w : Walker) : State := { s with walker := w }

/-- Write the history of reads. -/
def State.setReads (s : State) (h : List ReadEvent) : State := { s with reads := h }

/-- Write physical memory. -/
def State.setMem (s : State) (m : Memory) : State := { s with mem := m }

/-- Write the host's moves to come. -/
def State.setInputs (s : State) (is : List HostInput) : State := { s with inputs := is }

/-- Drive the output of the combinational functions. -/
def State.setOut (s : State) (r : FnResult) : State := { s with out := some r }

/-- The output of the combinational functions with nothing on it. -/
def State.clearOut (s : State) : State := { s with out := none }

/-- The byte at an address; `none` where memory is not readable (rules R59, R67). -/
def Memory.read : Memory → Nat → Option Byte
  | [], _ => none
  | (k, b) :: rest, a => if k = a then some b else Memory.read rest a

/-- Memory with one byte written. -/
def Memory.write : Memory → Nat → Byte → Memory
  | [], a, b => [(a, b)]
  | (k, c) :: rest, a, b =>
    if a < k then (a, b) :: (k, c) :: rest
    else if a = k then (a, b) :: rest
    else (k, c) :: Memory.write rest a b

/-- Memory with one byte made unreadable. -/
def Memory.erase : Memory → Nat → Memory
  | [], _ => []
  | (k, c) :: rest, a => if k = a then rest else (k, c) :: Memory.erase rest a

/-- The canonical form: addresses strictly rising, all of them 64-bit addresses (rule R58). An unlisted address has no
byte, so no listed entry equals what an unlisted one reads as. -/
def Memory.wf : Memory → Bool
  | [] => true
  | [c] => decide (c.1 < 2 ^ 64)
  | c :: d :: rest => decide (c.1 < d.1) && Memory.wf (d :: rest)

/-- The eight bytes at an address, little-endian (rule R52); `none` if one of them is not readable. -/
def Memory.readQword (m : Memory) (addr : Word) : Option Word :=
  match m.read addr.toNat, m.read (addr.toNat + 1), m.read (addr.toNat + 2), m.read (addr.toNat + 3),
    m.read (addr.toNat + 4), m.read (addr.toNat + 5), m.read (addr.toNat + 6), m.read (addr.toNat + 7) with
  | some b0, some b1, some b2, some b3, some b4, some b5, some b6, some b7 =>
    some (qwordOfBytes b0 b1 b2 b3 b4 b5 b6 b7)
  | _, _, _, _, _, _, _, _ => none

/-- Write bytes at consecutive addresses, from `a` up. -/
def Memory.writeBytes (m : Memory) (a : Nat) : List Byte → Memory
  | [] => m
  | b :: rest => Memory.writeBytes (m.write a b) (a + 1) rest

/-- Memory with one 64-bit value placed, little-endian (rule R52): how a page-table image is laid out. -/
def Memory.placeQword (m : Memory) (addr : Word) (v : Word) : Memory := m.writeBytes addr.toNat (bytesOfQword v)

/-- `MemRead(addr, 8)` (rules R50, R51, R67): the answer and the reader with that answer used; `none` when the read is
never answered. -/
def memRead (reader : Reader) (m : Memory) (addr : Word) : Option (ReadAnswer × Reader) :=
  match reader with
  | .memory missing =>
    match m.readQword addr with
    | some v => some (.ok v, .memory missing)
    | none => some (.err missing, .memory missing)
  | .script [] => none
  | .script (a :: rest) => some (a, .script rest)

/-- `raise Failed(kind, level)` (rule R256): the one way into `Failed`. The operands and the trace stay as they are;
`fail_raw` and `fail_err` are what the raising rule recorded. Nothing else changes. -/
def raiseFailed (va tb : Word) (kind : FailKind) (level : Option Level) (raw : Option Word)
    (err : Option HostReadError) (steps : List WalkStep) (s : State) : State :=
  s.setWalker (.failed va tb kind level raw err steps)

/-- Enter `Failed(NotPresent, level)` with the raw entry (rules R210, R212, R215, R218, R251). -/
def failNotPresent (level : Level) (raw : Word) (w : Walk) (s : State) : State :=
  raiseFailed w.va w.tb .notPresent (some level) (some raw) none w.steps s

/-- Enter `Resolved` with a physical address (rules R30, R213, R216, R219). -/
def resolve (pa : Word) (w : Walk) (s : State) : State := s.setWalker (.resolved w.va w.tb pa w.steps)

/-- What `FETCH` comes to. -/
inductive Fetch where
  /-- The reader never answers: the step does not take place (rule R201). -/
  | unanswered
  /-- `Err(e)`: `Failed(ReadFailure, level)` has been entered. -/
  | failed (s : State)
  /-- `Ok(v)`: the raw entry, the walk with its step appended, and the state with the read in its history. -/
  | fetched (raw : Word) (w : Walk) (s : State)
deriving DecidableEq, Repr

/-- `FETCH(level, index)` (rule R207), the index being the one of the level (rule R24). Exactly one read; the step is
appended when the read returns, before the present bit is tested; no step is appended when the read fails
(rule R252; log entry 16). -/
def fetch (level : Level) (w : Walk) (s : State) : Fetch :=
  match memRead w.reader s.mem (entryAddr w.tbl (indexAt level w.va)) with
  | none => .unanswered
  | some (.err e, _) =>
    .failed (raiseFailed w.va w.tb .readFailure (some level) none (some e) w.steps
      (s.setReads (s.reads ++ [⟨entryAddr w.tbl (indexAt level w.va), .err e⟩])))
  | some (.ok v, reader) =>
    .fetched v
      { w with reader := reader, steps := w.steps ++ [walkStepOf level w.tbl (indexAt level w.va) v] }
      (s.setReads (s.reads ++ [⟨entryAddr w.tbl (indexAt level w.va), .ok v⟩]))

/-- The walk a taken request begins with: the root table and an empty trace (rule R202). -/
def Request.walk (r : Request) : Walk :=
  { va := r.va, tb := r.tb, reader := r.reader, tbl := rootBase r.tb, steps := [] }

/-- The read of rule R202 for a request that is taken: `FETCH(PML4, PML4_INDEX(va))`, then `AtPML4`. While the read is
not answered the walker stays in `Start` with the request taken (rule R303). -/
def fetchRoot (r : Request) (s : State) : State :=
  match fetch .pml4 r.walk s with
  | .unanswered => s.setWalker (.start (some r))
  | .failed t => t
  | .fetched raw w t => t.setWalker (.atPml4 w raw)

/-- The request is turned away as non-canonical (rules R202, R253): only under `reject`. -/
def rejects (s : State) (va : Word) : Bool := s.policy == .reject && !isCanonical va

/-- `Failed(InvalidInput)`: no level, no read, an empty trace (rule R253). -/
def failInvalidInput (va tb : Word) (s : State) : State :=
  raiseFailed va tb .invalidInput none none none [] s

/-- The step from `Start` (rule R202): take the request, with an empty trace and an empty history. -/
def acceptRequest (r : Request) (s : State) : State :=
  if rejects s r.va then failInvalidInput r.va r.tb (s.setReads []) else fetchRoot r (s.setReads [])

/-- A request is presented: accepted in `Start` with no request taken; in any other state it has no effect and is not
queued (rule R305; log entry 17). -/
def presentRequest (r : Request) (s : State) : State :=
  match s.walker with
  | .start none => acceptRequest r s
  | _ => s

/-- `Start` with no register holding a value (rules R34, R306). -/
def clearWalk (s : State) : State := (s.setWalker (.start none)).setReads []

/-- `Retire` (rule R306): from a terminal state to `Start`. In any other state there is no result to take and nothing
changes (log entry 17). -/
def retire (s : State) : State :=
  match s.walker with
  | .resolved _ _ _ _ => clearWalk s
  | .failed _ _ _ _ _ _ _ => clearWalk s
  | _ => s

/-- Reset (rules R34, R290): a translation in progress is abandoned without a result, with any read in flight and the
reader; memory is not written (log entry 15). -/
def resetBlock (s : State) : State := (clearWalk s).clearOut

/-- What the walker does next with no move of the host: execute an entry at a level, or come to a state without
executing one. -/
inductive NextEntry where
  | entry (level : Level) (raw : Word) (s : State)
  | settled (s : State)
deriving DecidableEq, Repr

/-- The fetch of the step from `AtPDPT`, `AtPD` or `AtPT` (rules R204 to R206): the fetched entry is executed in the
same step, in the walker state of its level (`here`) with the trace extended. A read that is not answered leaves all as
it is (rule R201). -/
def fetchAt (level : Level) (here : Walk → Walker) (w : Walk) (s : State) : NextEntry :=
  match fetch level w s with
  | .unanswered => .settled s
  | .failed t => .settled t
  | .fetched raw w' t => .entry level raw (t.setWalker (here w'))

/-- The entry the walker executes next, fetched if its level is not read yet (rules R24, R201 to R206, R208). -/
def nextEntry (s : State) : NextEntry :=
  match s.walker with
  | .start none => .settled s
  | .start (some r) => .settled (fetchRoot r s)
  | .atPml4 _ raw => .entry .pml4 raw s
  | .atPdpt w => fetchAt .pdpt .atPdpt w s
  | .atPd w => fetchAt .pd .atPd w s
  | .atPt w => fetchAt .pt .atPt w s
  | .resolved _ _ _ _ => .settled s
  | .failed _ _ _ _ _ _ _ => .settled s

/-- The walk in which an entry fetched at a level is executed: the walker is at that level. -/
def walkAt : Level → Walker → Option Walk
  | .pml4, .atPml4 w _ => some w
  | .pdpt, .atPdpt w => some w
  | .pd, .atPd w => some w
  | .pt, .atPt w => some w
  | _, _ => none

/-- Execute an entry of a level: the effect on the walk, if the walker is at that level (rule R95). -/
def atLevel (level : Level) (s : State) (effect : Walk → State) : Host.Outcome State Fault Refusal :=
  match walkAt level s.walker with
  | some w => .next (effect w)
  | none => .refused .entryOutOfPlace

/-- `tbl <- NEXT_BASE(raw)` and the walker goes one level down (rules R211, R214, R217). -/
def descend (raw : Word) (below : Walk → Walker) (w : Walk) (s : State) : State :=
  s.setWalker (below { w with tbl := nextBase raw })

/-- The walker state in which the read of a level is still to come (rules R21, R303). -/
def waitingAt (level : Level) (w : Walk) : Walker :=
  match level with
  | .pml4 => .start (some { va := w.va, tb := w.tb, reader := w.reader })
  | .pdpt => .atPdpt w
  | .pd => .atPd w
  | .pt => .atPt w

/-- The result the host receives in a terminal state (rules R30, R31, R92, R232); `none` in every other state. -/
def State.result (s : State) : Option TranslationResult :=
  match s.walker with
  | .resolved _ _ pa steps => some (.report pa steps)
  | .failed _ _ kind level raw err steps => some (.error kind level steps raw err)
  | _ => none

/-- The address of the entry to be fetched next (rule R24); `none` where no fetch is to come. -/
def State.fetchAddr (s : State) : Option Word :=
  match s.walker with
  | .start (some r) => some (entryAddr (rootBase r.tb) (pml4Index r.va))
  | .atPdpt w => some (entryAddr w.tbl (pdptIndex w.va))
  | .atPd w => some (entryAddr w.tbl (pdIndex w.va))
  | .atPt w => some (entryAddr w.tbl (ptIndex w.va))
  | _ => none

/-- The number code of a level (rule R87), for a bit-level port only. -/
def levelCode : Level → Nat
  | .pml4 => 0
  | .pdpt => 1
  | .pd => 2
  | .pt => 3

/-- The number code of a failure kind (rule R88), for a bit-level port only. -/
def failKindCode : FailKind → Nat
  | .notPresent => 0
  | .readFailure => 1
  | .invalidInput => 2

/-- The number code of the walker state (rule R89), for a bit-level port only. -/
def walkerCode : Walker → Nat
  | .start _ => 0
  | .atPml4 _ _ => 1
  | .atPdpt _ => 2
  | .atPd _ => 3
  | .atPt _ => 4
  | .resolved _ _ _ _ => 5
  | .failed _ _ _ _ _ _ _ => 6

/-- The reader and memory changed so that the next read, at `addr`, gets `raw`. -/
def supply (reader : Reader) (addr raw : Word) (s : State) : Reader × State :=
  match reader with
  | .memory missing => (.memory missing, s.setMem (s.mem.placeQword addr raw))
  | .script answers => (.script (.ok raw :: answers), s)

/-- The state that executes `raw` as its next entry: the table of the current walk holds it where the walker fetches
next; in `Start` and in a terminal state, a request for virtual address 0 with its PML4 table at 0 has been accepted
first, so that `raw` is its PML4 entry (rules R24, R202). -/
def placeEntry (raw : Word) (s : State) : State :=
  match s.walker with
  | .start (some r) =>
    let p := supply r.reader (entryAddr (rootBase r.tb) (pml4Index r.va)) raw s
    fetchRoot { r with reader := p.1 } p.2
  | .atPml4 w _ =>
    s.setWalker (.atPml4 { w with steps := w.steps.dropLast ++ [walkStepOf .pml4 w.tbl (pml4Index w.va) raw] } raw)
  | .atPdpt w =>
    let p := supply w.reader (entryAddr w.tbl (pdptIndex w.va)) raw s
    p.2.setWalker (.atPdpt { w with reader := p.1 })
  | .atPd w =>
    let p := supply w.reader (entryAddr w.tbl (pdIndex w.va)) raw s
    p.2.setWalker (.atPd { w with reader := p.1 })
  | .atPt w =>
    let p := supply w.reader (entryAddr w.tbl (ptIndex w.va)) raw s
    p.2.setWalker (.atPt { w with reader := p.1 })
  | _ =>
    acceptRequest { va := 0#64, tb := 0#64, reader := .memory ⟨0⟩ }
      ((s.setMem (s.mem.placeQword 0#64 raw)).setWalker (.start none))

end Sys2Proof.Machine
end

