-- ==== Sys2Proof/Machine/Composer.lean ====
section
/-! DEFINITION. The functions of physical_address_composer (rules R170 to R180). Each drives its value on the output
of the combinational functions and changes nothing else: no flag, no failure, no register of the walker (log entry
4). -/

namespace Sys2Proof.Machine

open Sys2Proof

/-- `ROOT_BASE(tb)` (rule R170). -/
def execRootBase (tb : Word) (s : State) : Host.Outcome State Fault Refusal :=
  .next (s.setOut (.address (rootBase tb)))

/-- `NEXT_BASE(raw)` (rule R172). -/
def execNextBase (raw : Word) (s : State) : Host.Outcome State Fault Refusal :=
  .next (s.setOut (.address (nextBase raw)))

/-- `ENTRY_ADDR(base, index)` (rule R173). -/
def execEntryAddr (base : Word) (index : BitVec 9) (s : State) : Host.Outcome State Fault Refusal :=
  .next (s.setOut (.address (entryAddr base index)))

/-- `BASE_2M(raw)` (rule R174). -/
def execBase2m (raw : Word) (s : State) : Host.Outcome State Fault Refusal :=
  .next (s.setOut (.address (base2m raw)))

/-- `BASE_1G(raw)` (rule R175). -/
def execBase1g (raw : Word) (s : State) : Host.Outcome State Fault Refusal :=
  .next (s.setOut (.address (base1g raw)))

/-- `OFFSET_2M(va)` (rule R176). -/
def execOffset2m (va : Word) (s : State) : Host.Outcome State Fault Refusal :=
  .next (s.setOut (.offset2m (offset2m va)))

/-- `OFFSET_1G(va)` (rule R177). -/
def execOffset1g (va : Word) (s : State) : Host.Outcome State Fault Refusal :=
  .next (s.setOut (.offset1g (offset1g va)))

/-- `COMPOSE_4K(raw, va)` (rule R178). -/
def execCompose4k (raw va : Word) (s : State) : Host.Outcome State Fault Refusal :=
  .next (s.setOut (.address (compose4k raw va)))

/-- `COMPOSE_2M(raw, va)` (rule R179). -/
def execCompose2m (raw va : Word) (s : State) : Host.Outcome State Fault Refusal :=
  .next (s.setOut (.address (compose2m raw va)))

/-- `COMPOSE_1G(raw, va)` (rule R180). -/
def execCompose1g (raw va : Word) (s : State) : Host.Outcome State Fault Refusal :=
  .next (s.setOut (.address (compose1g raw va)))

end Sys2Proof.Machine
end

