-- ==== Sys2Proof/Machine/PdEntries.lean ====
section
/-! DEFINITION. The entry kinds fetched at PD (rules R215 to R217). -/

namespace Sys2Proof.Machine

open Sys2Proof

/-- `PDE.NP` (rule R215): bit 0 clear; `Failed(NotPresent)` with the raw entry. -/
def execPdeNp (raw : Word) (s : State) : Host.Outcome State Fault Refusal :=
  atLevel .pd s fun w => failNotPresent .pd raw w s

/-- `PDE.PAGE_2M` (rule R216): a 2 MiB leaf; `res_pa` is composed from the entry and `va`. -/
def execPdePage2m (raw : Word) (s : State) : Host.Outcome State Fault Refusal :=
  atLevel .pd s fun w => resolve (compose2m raw w.va) w s

/-- `PDE.TABLE` (rule R217): `tbl <- NEXT_BASE(raw)`, one level down. -/
def execPdeTable (raw : Word) (s : State) : Host.Outcome State Fault Refusal :=
  atLevel .pd s fun w => descend raw .atPt w s

end Sys2Proof.Machine
end

