-- ==== Sys2Proof/Machine/PdptEntries.lean ====
section
/-! DEFINITION. The entry kinds fetched at PDPT (rules R212 to R214). -/

namespace Sys2Proof.Machine

open Sys2Proof

/-- `PDPTE.NP` (rule R212): bit 0 clear; `Failed(NotPresent)` with the raw entry. -/
def execPdpteNp (raw : Word) (s : State) : Host.Outcome State Fault Refusal :=
  atLevel .pdpt s fun w => failNotPresent .pdpt raw w s

/-- `PDPTE.PAGE_1G` (rule R213): a 1 GiB leaf; `res_pa` is composed from the entry and `va`. -/
def execPdptePage1g (raw : Word) (s : State) : Host.Outcome State Fault Refusal :=
  atLevel .pdpt s fun w => resolve (compose1g raw w.va) w s

/-- `PDPTE.TABLE` (rule R214): `tbl <- NEXT_BASE(raw)`, one level down. -/
def execPdpteTable (raw : Word) (s : State) : Host.Outcome State Fault Refusal :=
  atLevel .pdpt s fun w => descend raw .atPd w s

end Sys2Proof.Machine
end

