-- ==== Sys2Proof/Machine/Pml4Entries.lean ====
section
/-! DEFINITION. The entry kinds fetched at PML4 (rules R210, R211). Bit 7 is not inspected (rule R150). -/

namespace Sys2Proof.Machine

open Sys2Proof

/-- `PML4E.NP` (rule R210): bit 0 clear; `Failed(NotPresent)` with the raw entry. -/
def execPml4eNp (raw : Word) (s : State) : Host.Outcome State Fault Refusal :=
  atLevel .pml4 s fun w => failNotPresent .pml4 raw w s

/-- `PML4E.TABLE` (rule R211): `tbl <- NEXT_BASE(raw)`, one level down. -/
def execPml4eTable (raw : Word) (s : State) : Host.Outcome State Fault Refusal :=
  atLevel .pml4 s fun w => descend raw .atPdpt w s

end Sys2Proof.Machine
end

