-- ==== Sys2Proof/Machine/PtEntries.lean ====
section
/-! DEFINITION. The entry kinds fetched at PT (rules R218, R219). Bit 7 is not inspected (rule R150). -/

namespace Sys2Proof.Machine

open Sys2Proof

/-- `PTE.NP` (rule R218): bit 0 clear; `Failed(NotPresent)` with the raw entry. -/
def execPteNp (raw : Word) (s : State) : Host.Outcome State Fault Refusal :=
  atLevel .pt s fun w => failNotPresent .pt raw w s

/-- `PTE.PAGE_4K` (rule R219): a 4 KiB leaf; `res_pa` is composed from the entry and `va`. -/
def execPtePage4k (raw : Word) (s : State) : Host.Outcome State Fault Refusal :=
  atLevel .pt s fun w => resolve (compose4k raw w.va) w s

end Sys2Proof.Machine
end

