-- ==== Sys2Proof/Machine/PteDecoder.lean ====
section
/-! DEFINITION. The functions of pte_decoder_and_validator (rules R140 to R145, R148). Each drives its value on the
output of the combinational functions and changes nothing else: no flag, no failure, no register of the walker (log
entry 4). -/

namespace Sys2Proof.Machine

open Sys2Proof

/-- `PRESENT(raw)` (rule R140). -/
def execPresent (raw : Word) (s : State) : Host.Outcome State Fault Refusal :=
  .next (s.setOut (.bit (present raw)))

/-- `WRITABLE(raw)` (rule R141). -/
def execWritable (raw : Word) (s : State) : Host.Outcome State Fault Refusal :=
  .next (s.setOut (.bit (writable raw)))

/-- `USER(raw)` (rule R142). -/
def execUser (raw : Word) (s : State) : Host.Outcome State Fault Refusal :=
  .next (s.setOut (.bit (user raw)))

/-- `PAGE_SIZE(raw)` (rule R143). -/
def execPageSize (raw : Word) (s : State) : Host.Outcome State Fault Refusal :=
  .next (s.setOut (.bit (pageSize raw)))

/-- `PHYSICAL_BASE(raw)` (rule R144). -/
def execPhysicalBase (raw : Word) (s : State) : Host.Outcome State Fault Refusal :=
  .next (s.setOut (.address (physicalBase raw)))

/-- `DECODE(raw)` (rule R145). -/
def execDecodeEntry (raw : Word) (s : State) : Host.Outcome State Fault Refusal :=
  .next (s.setOut (.entry (decodeEntry raw)))

/-- `CLASSIFY(level, raw)` (rule R148). -/
def execClassify (level : Level) (raw : Word) (s : State) : Host.Outcome State Fault Refusal :=
  .next (s.setOut (.kind (classify level raw)))

end Sys2Proof.Machine
end

