-- ==== Sys2Proof/Machine/Translate.lean ====
section
/-! DEFINITION. The one request, `TRANSLATE(va, tb)` with a reader, as one function (rules R230, R231). It is written
from the loop of rule R231, not from the steps of rules R201 to R206; that both agree is a statement. -/

namespace Sys2Proof.Machine

open Sys2Proof

/-- The levels of a walk, in order (rule R231). -/
def walkLevels : List Level := [.pml4, .pdpt, .pd, .pt]

/-- The loop of rule R231 over the levels still to visit. A read that is never answered ends it with the walker in the
state whose read is outstanding (rules R51, R303). After the last level nothing is left to visit: a present entry at PT
resolves. -/
def translateLevels : List Level → Walk → State → State
  | [], _, s => s
  | level :: below, w, s =>
    match fetch level w s with
    | .unanswered => s.setWalker (waitingAt level w)
    | .failed t => t
    | .fetched raw w' t =>
      if present raw = false then failNotPresent level raw w' t
      else if level = .pdpt ∧ pageSize raw = true then resolve (compose1g raw w'.va) w' t
      else if level = .pd ∧ pageSize raw = true then resolve (compose2m raw w'.va) w' t
      else if level = .pt then resolve (compose4k raw w'.va) w' t
      else translateLevels below { w' with tbl := nextBase raw } t

/-- The whole translation from `Start` (rule R231): the canonical test under `reject`, then the levels. -/
def translateFrom (r : Request) (s : State) : State :=
  if rejects s r.va then failInvalidInput r.va r.tb (s.setReads [])
  else translateLevels walkLevels r.walk (s.setReads [])

/-- `TRANSLATE(va, tb)` (rule R230). It is accepted in `Start` with no request taken; in any other state it has no
effect (rule R305). -/
def execTranslate (va tb : Word) (reader : Reader) (s : State) : Host.Outcome State Fault Refusal :=
  match s.walker with
  | .start none => .next (translateFrom { va := va, tb := tb, reader := reader } s)
  | _ => .next s

end Sys2Proof.Machine
end

