-- ==== Sys2Proof/Machine/VaIndex.lean ====
section
/-! DEFINITION. The functions of va_index_extractor (rules R120 to R125, R127). Each drives its value on the output
of the combinational functions and changes nothing else: no flag, no failure, no register of the walker (log entry
4). -/

namespace Sys2Proof.Machine

open Sys2Proof

/-- `PML4_INDEX(va)` (rule R120). -/
def execPml4Index (va : Word) (s : State) : Host.Outcome State Fault Refusal :=
  .next (s.setOut (.index (pml4Index va)))

/-- `PDPT_INDEX(va)` (rule R121). -/
def execPdptIndex (va : Word) (s : State) : Host.Outcome State Fault Refusal :=
  .next (s.setOut (.index (pdptIndex va)))

/-- `PD_INDEX(va)` (rule R122). -/
def execPdIndex (va : Word) (s : State) : Host.Outcome State Fault Refusal :=
  .next (s.setOut (.index (pdIndex va)))

/-- `PT_INDEX(va)` (rule R123). -/
def execPtIndex (va : Word) (s : State) : Host.Outcome State Fault Refusal :=
  .next (s.setOut (.index (ptIndex va)))

/-- `PAGE_OFFSET(va)` (rule R124). -/
def execPageOffset (va : Word) (s : State) : Host.Outcome State Fault Refusal :=
  .next (s.setOut (.pageOffset (pageOffset va)))

/-- `DECOMPOSE(va)` (rule R125). -/
def execDecompose (va : Word) (s : State) : Host.Outcome State Fault Refusal :=
  .next (s.setOut (.fields (decompose va)))

/-- `IS_CANONICAL(va)` (rule R127). -/
def execIsCanonical (va : Word) (s : State) : Host.Outcome State Fault Refusal :=
  .next (s.setOut (.bit (isCanonical va)))

end Sys2Proof.Machine
end

