-- ==== Sys2Proof/Machine/Dispatch.lean ====
section
/-! DEFINITION. One arm per operation of the block, each a call of its meaning. -/

namespace Sys2Proof.Machine

open Sys2Proof

def exec (i : Instr) (s : State) : Host.Outcome State Fault Refusal :=
  match i with
  | .pml4eNp raw => Sys2Proof.Machine.execPml4eNp raw s
  | .pml4eTable raw => Sys2Proof.Machine.execPml4eTable raw s
  | .pdpteNp raw => Sys2Proof.Machine.execPdpteNp raw s
  | .pdptePage1g raw => Sys2Proof.Machine.execPdptePage1g raw s
  | .pdpteTable raw => Sys2Proof.Machine.execPdpteTable raw s
  | .pdeNp raw => Sys2Proof.Machine.execPdeNp raw s
  | .pdePage2m raw => Sys2Proof.Machine.execPdePage2m raw s
  | .pdeTable raw => Sys2Proof.Machine.execPdeTable raw s
  | .pteNp raw => Sys2Proof.Machine.execPteNp raw s
  | .ptePage4k raw => Sys2Proof.Machine.execPtePage4k raw s
  | .translate va tb reader => Sys2Proof.Machine.execTranslate va tb reader s
  | .pml4Index va => Sys2Proof.Machine.execPml4Index va s
  | .pdptIndex va => Sys2Proof.Machine.execPdptIndex va s
  | .pdIndex va => Sys2Proof.Machine.execPdIndex va s
  | .ptIndex va => Sys2Proof.Machine.execPtIndex va s
  | .pageOffset va => Sys2Proof.Machine.execPageOffset va s
  | .decompose va => Sys2Proof.Machine.execDecompose va s
  | .isCanonical va => Sys2Proof.Machine.execIsCanonical va s
  | .present raw => Sys2Proof.Machine.execPresent raw s
  | .writable raw => Sys2Proof.Machine.execWritable raw s
  | .user raw => Sys2Proof.Machine.execUser raw s
  | .pageSize raw => Sys2Proof.Machine.execPageSize raw s
  | .physicalBase raw => Sys2Proof.Machine.execPhysicalBase raw s
  | .decodeEntry raw => Sys2Proof.Machine.execDecodeEntry raw s
  | .classify level raw => Sys2Proof.Machine.execClassify level raw s
  | .rootBase tb => Sys2Proof.Machine.execRootBase tb s
  | .nextBase raw => Sys2Proof.Machine.execNextBase raw s
  | .entryAddr base index => Sys2Proof.Machine.execEntryAddr base index s
  | .base2m raw => Sys2Proof.Machine.execBase2m raw s
  | .base1g raw => Sys2Proof.Machine.execBase1g raw s
  | .offset2m va => Sys2Proof.Machine.execOffset2m va s
  | .offset1g va => Sys2Proof.Machine.execOffset1g va s
  | .compose4k raw va => Sys2Proof.Machine.execCompose4k raw va s
  | .compose2m raw va => Sys2Proof.Machine.execCompose2m raw va s
  | .compose1g raw va => Sys2Proof.Machine.execCompose1g raw va s

end Sys2Proof.Machine
end

