-- ==== Sys2Proof/Machine/Step.lean ====
section
/-! DEFINITION. One step of the machine: the host's next move, and the walker's own step when the host makes none
(rules R201, R304). Everything a step does stands in the operations it calls. -/

namespace Sys2Proof.Machine

open Sys2Proof

/-- The walker's own step: the entry it executes next, or the state it comes to without executing one. -/
def walkStep (s : State) : Host.Outcome State Fault Refusal :=
  match nextEntry s with
  | .entry level raw t => exec (decode level raw) t
  | .settled t => .next t

/-- One step. A move of the host is consumed whether it has an effect or not. -/
def step (s : State) : Host.Outcome State Fault Refusal :=
  match s.inputs with
  | [] => walkStep s
  | .idle :: rest => walkStep (s.setInputs rest)
  | .request r :: rest => .next (presentRequest r (s.setInputs rest))
  | .retire :: rest => .next (retire (s.setInputs rest))
  | .reset :: rest => .next (resetBlock (s.setInputs rest))
  | .store addr byte :: rest => .next ((s.setInputs rest).setMem (s.mem.write addr.toNat byte))
  | .unmap addr :: rest => .next ((s.setInputs rest).setMem (s.mem.erase addr.toNat))

/-- `s` with the entry `w` (its bits above `nbits` zero) placed as the entry the next step executes (log entry 7): the
host makes no move in that step. -/
def State.withFetchWord (s : State) (nbits w : Nat) : State :=
  match s.inputs with
  | [] => placeEntry (entryOfTableWord nbits w) s
  | inputs => placeEntry (entryOfTableWord nbits w) (s.setInputs (.idle :: inputs))

end Sys2Proof.Machine
end

