-- ==== Sys2Proof/Safety.lean ====
section
/-! DEFINITION. What counts as a sound state of the block, in the terms the statements use: the invariants of rule R36,
written as one predicate on the walker, the policy and the history of reads. -/

namespace Sys2Proof.Machine

open Sys2Proof

/-- A table base: bits 63:52 and 11:0 zero (rules R36 item 1, R171). -/
def IsTableBase (tbl : Word) : Prop := tbl.toNat % Config.tableBytes = 0 ∧ tbl.toNat < 2 ^ Config.paWidth

/-- An address the block may issue: a multiple of 8 below `2^52` (rules R53, R58). -/
def IsEntryAddr (a : Word) : Prop := a.toNat % Config.entryBytes = 0 ∧ a.toNat < 2 ^ Config.paWidth

/-- The levels visited before a level (rules R233, R257). -/
def levelsBefore : Level → List Level
  | .pml4 => []
  | .pdpt => [.pml4]
  | .pd => [.pml4, .pdpt]
  | .pt => [.pml4, .pdpt, .pd]

/-- The entry leads one level down: present, and not huge where the page size counts (rule R36 item 4). -/
def LeadsDown (level : Level) (raw : Word) : Prop :=
  present raw = true ∧ (level = .pdpt ∨ level = .pd → pageSize raw = false)

/-- The physical address an entry resolves to, for the three leaf kinds (rules R36 item 6, R213, R216, R219). -/
def leafAddr (level : Level) (raw va : Word) : Option Word :=
  match classify level raw with
  | .pdptePage1g => some (compose1g raw va)
  | .pdePage2m => some (compose2m raw va)
  | .ptePage4k => some (compose4k raw va)
  | _ => none

/-- The trace from the table `tbl` down the given levels, each entry leading down, ending at the table `last`: rule R36
items 2 to 5. -/
def Descends (va : Word) : List Level → Word → List WalkStep → Word → Prop
  | [], tbl, steps, last => steps = [] ∧ last = tbl
  | level :: levels, tbl, steps, last =>
    ∃ raw rest, steps = walkStepOf level tbl (indexAt level va) raw :: rest ∧ LeadsDown level raw ∧
      Descends va levels (nextBase raw) rest last

/-- The reads that gave a trace: one per step, at the entry of that step, in order (rules R54, R60, R257). -/
def readsOf (steps : List WalkStep) : List ReadEvent :=
  steps.map fun st => ⟨entryAddr st.table st.index, .ok st.raw⟩

/-- The walk stands before the read of a level: every level before it recorded, leading to `tbl`, and read once. -/
def Walk.Before (w : Walk) (level : Level) (reads : List ReadEvent) : Prop :=
  Descends w.va (levelsBefore level) (rootBase w.tb) w.steps w.tbl ∧ reads = readsOf w.steps

/-- The request is not turned away as non-canonical (rule R253). -/
def Admitted (policy : NoncanonicalPolicy) (va : Word) : Prop := policy = .reject → isCanonical va = true

/-- The invariants of rule R36 for a walker state, with the reads of the translation beside it (rules R236, R257). -/
def Walker.Sound (policy : NoncanonicalPolicy) (reads : List ReadEvent) : Walker → Prop
  | .start none => reads = []
  | .start (some r) => Admitted policy r.va ∧ reads = []
  | .atPml4 w raw =>
    Admitted policy w.va ∧ w.tbl = rootBase w.tb ∧ w.steps = [walkStepOf .pml4 w.tbl (pml4Index w.va) raw] ∧
      reads = readsOf w.steps
  | .atPdpt w => Admitted policy w.va ∧ w.Before .pdpt reads
  | .atPd w => Admitted policy w.va ∧ w.Before .pd reads
  | .atPt w => Admitted policy w.va ∧ w.Before .pt reads
  | .resolved va tb resPa steps =>
    Admitted policy va ∧ ∃ level above tbl raw, Descends va (levelsBefore level) (rootBase tb) above tbl ∧
      steps = above ++ [walkStepOf level tbl (indexAt level va) raw] ∧ leafAddr level raw va = some resPa ∧
      reads = readsOf steps
  | .failed va tb kind level raw err steps =>
    match kind, level, raw, err with
    | .notPresent, some l, some v, none =>
      Admitted policy va ∧ ∃ above tbl, Descends va (levelsBefore l) (rootBase tb) above tbl ∧
        steps = above ++ [walkStepOf l tbl (indexAt l va) v] ∧ present v = false ∧ reads = readsOf steps
    | .readFailure, some l, none, some e =>
      Admitted policy va ∧ ∃ tbl, Descends va (levelsBefore l) (rootBase tb) steps tbl ∧
        reads = readsOf steps ++ [⟨entryAddr tbl (indexAt l va), .err e⟩]
    | .invalidInput, none, none, none => policy = .reject ∧ isCanonical va = false ∧ steps = [] ∧ reads = []
    | _, _, _, _ => False

/-- The state meets rule R36. -/
def State.Sound (s : State) : Prop := s.walker.Sound s.policy s.reads

/-- `m(level, raw)` of rule R152: what of a fetched entry can matter to the walk after it. -/
def relevantMask (level : Level) (raw : Word) : Word :=
  if present raw = false then 0x0000000000000001#64
  else match level with
    | .pml4 => 0x000FFFFFFFFFF001#64
    | .pdpt => if pageSize raw = true then 0x000FFFFFC0000081#64 else 0x000FFFFFFFFFF081#64
    | .pd => if pageSize raw = true then 0x000FFFFFFFE00081#64 else 0x000FFFFFFFFFF081#64
    | .pt => 0x000FFFFFFFFFF001#64

/-- The translation is over: `Resolved` or `Failed` (rule R19). -/
def Walker.Terminal : Walker → Prop
  | .resolved _ _ _ _ => True
  | .failed _ _ _ _ _ _ _ => True
  | _ => False

/-- The reader answers at least `n` reads (rule R300): the finite-map reader answers every one. -/
def answersReads (n : Nat) : Reader → Prop
  | .memory _ => True
  | .script answers => n ≤ answers.length

/-- The host makes no move in the next step, and `rest` are its moves after it. -/
def HostIdle (s : State) (rest : List HostInput) : Prop :=
  (s.inputs = [] ∧ rest = []) ∨ s.inputs = .idle :: rest

/-- `k` steps of the machine, stopping at the first fault or refusal. -/
def runSteps : Nat → State → Host.Outcome State Fault Refusal
  | 0, s => .next s
  | k + 1, s =>
    match step s with
    | .next t => runSteps k t
    | .fault r => .fault r
    | .refused r => .refused r

end Sys2Proof.Machine
end

