-- ==== Sys2Proof/Certificates/Slice0/Obligations.lean ====
section
/-! DEFINITION. The statements for the provers. Each docstring names the rules of spec/ it formalises. `step`, `exec`,
`decode` and the functions named in a statement are those of the model; nothing here is about a program. -/

open Sys2Proof Sys2Proof.Machine

/-! ### Encoding and decoding -/

/-- The bytes of a well-formed entry, in address order, decode at the level of its kind to that entry, with every bit of
the entry kept and the bytes after it left (rules R52, R95, R100). -/
def Obligations.DecodeOfEncodedBytesIsTheEntry : Prop :=
  ∀ (i : Instr) (level : Level) (raw : Word) (rest : List Byte), i.wellFormed = true → encode i = some (level, raw) →
    decodeBytes level (bytesOfQword raw ++ rest) = .entry i rest

/-- At each level every 64-bit value is admitted by exactly one row of the entry map, and the decoder gives that row's
kind (rule R100). -/
def Obligations.EntryMapIsExhaustiveAndExclusive : Prop :=
  ∀ (level : Level) (raw : Word), ∃ k : EntryKind, k ∈ EntryKind.all ∧ k.level = level ∧ raw &&& k.mask = k.matchBits ∧
    decode level raw = k.instr raw ∧ (decode level raw).wellFormed = true ∧
    ∀ k' : EntryKind, k'.level = level → raw &&& k'.mask = k'.matchBits → k' = k

/-- `CLASSIFY` is total and gives rule R148's own cases, presence first, then the page size at PDPT and PD only; it is the
kind the decoder gives. -/
def Obligations.ClassifyGivesTheDecodedKind : Prop :=
  ∀ (level : Level) (raw : Word), decode level raw = (classify level raw).instr raw ∧
    (raw.getLsbD 0 = false →
      (level = .pml4 → classify level raw = .pml4eNp) ∧ (level = .pdpt → classify level raw = .pdpteNp) ∧
        (level = .pd → classify level raw = .pdeNp) ∧ (level = .pt → classify level raw = .pteNp)) ∧
    (raw.getLsbD 0 = true →
      (level = .pml4 → classify level raw = .pml4eTable) ∧ (level = .pt → classify level raw = .ptePage4k) ∧
        (level = .pdpt → classify level raw = if raw.getLsbD 7 = true then .pdptePage1g else .pdpteTable) ∧
        (level = .pd → classify level raw = if raw.getLsbD 7 = true then .pdePage2m else .pdeTable))

/-- One word of each kind, written from the bits of rules R83 and R100, decodes to that kind. -/
def Obligations.SpecWordsDecodeToTheirKinds : Prop :=
  decode .pml4 (entryOfFields 0#12 0x2#40 0#4 0#1 0#4 1#1 1#1 0#1) = .pml4eNp 0x2006#64 ∧
  decode .pml4 (entryOfFields 0#12 0x2#40 0#4 1#1 0#4 0#1 1#1 1#1) = .pml4eTable 0x2083#64 ∧
  decode .pdpt (entryOfFields 0#12 0#40 0#4 1#1 0#4 0#1 0#1 0#1) = .pdpteNp 0x80#64 ∧
  decode .pdpt (entryOfFields 0#12 0x1C0000#40 0#4 1#1 12#4 1#1 1#1 1#1) = .pdptePage1g 0x00000001C00000E7#64 ∧
  decode .pdpt (entryOfFields 0#12 0x3#40 0#4 0#1 0#4 1#1 1#1 1#1) = .pdpteTable 0x3007#64 ∧
  decode .pd (entryOfFields 0#12 0xDEADB#40 0#4 1#1 12#4 1#1 1#1 0#1) = .pdeNp 0xDEADB0E6#64 ∧
  decode .pd (entryOfFields 0#12 0x40201#40 0#4 1#1 0#4 0#1 1#1 1#1) = .pdePage2m 0x40201083#64 ∧
  decode .pd (entryOfFields 0#12 0x4#40 0#4 0#1 0#4 1#1 1#1 1#1) = .pdeTable 0x4007#64 ∧
  decode .pt (entryOfFields 0#12 0x12345#40 0#4 0#1 12#4 1#1 1#1 0#1) = .pteNp 0x12345066#64 ∧
  decode .pt (entryOfFields 0x800#12 0x12345#40 0#4 0#1 12#4 1#1 1#1 1#1) = .ptePage4k 0x8000000012345067#64

/-- Fewer than eight bytes are no entry: the decoder rejects them by name (model's own, from rule R80: one length of entry,
64 bits). -/
def Obligations.ShortBytesAreRejected : Prop :=
  ∀ (level : Level) (bytes : List Byte), bytes.length < 8 →
    decodeBytes level bytes = .rejected (.truncatedEntry bytes.length)

/-- The 64-bit value of eight readable bytes is their little-endian sum, and a read needs all eight (rule R52). What `memRead`
answers: the finite-map reader of rule R67 `Ok` of that value, or its error where there is none, and it stays the reader; an
oracle held as the list of its answers its first one, with the rest left, and none when the list is empty (the three outcomes of
rule R51). The plain data of a reader is the model's own, log entry 2; that a byte not listed is not readable, log entry 9. -/
def Obligations.QwordReadIsLittleEndianSum : Prop :=
  (∀ (m : Memory) (addr : Word) (b0 b1 b2 b3 b4 b5 b6 b7 : Byte),
    m.read addr.toNat = some b0 → m.read (addr.toNat + 1) = some b1 → m.read (addr.toNat + 2) = some b2 →
    m.read (addr.toNat + 3) = some b3 → m.read (addr.toNat + 4) = some b4 → m.read (addr.toNat + 5) = some b5 →
    m.read (addr.toNat + 6) = some b6 → m.read (addr.toNat + 7) = some b7 →
    ∃ v, m.readQword addr = some v ∧
      v.toNat = b0.toNat + b1.toNat * 2 ^ 8 + b2.toNat * 2 ^ 16 + b3.toNat * 2 ^ 24 + b4.toNat * 2 ^ 32 +
        b5.toNat * 2 ^ 40 + b6.toNat * 2 ^ 48 + b7.toNat * 2 ^ 56) ∧
  (∀ (m : Memory) (addr : Word) (i : Nat), i < 8 → m.read (addr.toNat + i) = none → m.readQword addr = none) ∧
  (∀ (missing : HostReadError) (m : Memory) (addr : Word),
    (∀ v, m.readQword addr = some v → memRead (.memory missing) m addr = some (.ok v, .memory missing)) ∧
    (m.readQword addr = none → memRead (.memory missing) m addr = some (.err missing, .memory missing))) ∧
  (∀ (m : Memory) (addr : Word), memRead (.script []) m addr = none ∧
    ∀ answer rest, memRead (.script (answer :: rest)) m addr = some (answer, .script rest))

/-! ### The functions of the sub-blocks -/

/-- Evaluating a function drives its value on the output of the combinational functions, succeeds for every operand and changes
nothing else: no flag, no failure, no register, no memory. That a value goes to the field `out` is the model's own choice, log
entry 4; which value each function has is stated in the statements after this one. -/
def Obligations.FunctionsDriveTheirValue : Prop :=
  ∀ (s : State) (va raw tb base : Word) (index : BitVec 9) (level : Level),
    exec (.pml4Index va) s = .next { s with out := some (.index (pml4Index va)) } ∧
    exec (.pdptIndex va) s = .next { s with out := some (.index (pdptIndex va)) } ∧
    exec (.pdIndex va) s = .next { s with out := some (.index (pdIndex va)) } ∧
    exec (.ptIndex va) s = .next { s with out := some (.index (ptIndex va)) } ∧
    exec (.pageOffset va) s = .next { s with out := some (.pageOffset (pageOffset va)) } ∧
    exec (.decompose va) s = .next { s with out := some (.fields (decompose va)) } ∧
    exec (.isCanonical va) s = .next { s with out := some (.bit (isCanonical va)) } ∧
    exec (.present raw) s = .next { s with out := some (.bit (present raw)) } ∧
    exec (.writable raw) s = .next { s with out := some (.bit (writable raw)) } ∧
    exec (.user raw) s = .next { s with out := some (.bit (user raw)) } ∧
    exec (.pageSize raw) s = .next { s with out := some (.bit (pageSize raw)) } ∧
    exec (.physicalBase raw) s = .next { s with out := some (.address (physicalBase raw)) } ∧
    exec (.decodeEntry raw) s = .next { s with out := some (.entry (decodeEntry raw)) } ∧
    exec (.classify level raw) s = .next { s with out := some (.kind (classify level raw)) } ∧
    exec (.rootBase tb) s = .next { s with out := some (.address (rootBase tb)) } ∧
    exec (.nextBase raw) s = .next { s with out := some (.address (nextBase raw)) } ∧
    exec (.entryAddr base index) s = .next { s with out := some (.address (entryAddr base index)) } ∧
    exec (.base2m raw) s = .next { s with out := some (.address (base2m raw)) } ∧
    exec (.base1g raw) s = .next { s with out := some (.address (base1g raw)) } ∧
    exec (.offset2m va) s = .next { s with out := some (.offset2m (offset2m va)) } ∧
    exec (.offset1g va) s = .next { s with out := some (.offset1g (offset1g va)) } ∧
    exec (.compose4k raw va) s = .next { s with out := some (.address (compose4k raw va)) } ∧
    exec (.compose2m raw va) s = .next { s with out := some (.address (compose2m raw va)) } ∧
    exec (.compose1g raw va) s = .next { s with out := some (.address (compose1g raw va)) }

/-- Each field function gives its field of the virtual address, for every operand; an address whose bits 63:47 are all one has
a PML4 index of 256 or more, one whose bits 63:47 are all zero has one of 255 or less (rules R120 to R124). -/
def Obligations.FieldFunctionsExtractTheirBits : Prop :=
  ∀ va : Word,
    (pml4Index va).setWidth 64 = (va >>> 39) &&& 0x1FF#64 ∧
    (pdptIndex va).setWidth 64 = (va >>> 30) &&& 0x1FF#64 ∧
    (pdIndex va).setWidth 64 = (va >>> 21) &&& 0x1FF#64 ∧
    (ptIndex va).setWidth 64 = (va >>> 12) &&& 0x1FF#64 ∧
    (pageOffset va).setWidth 64 = va &&& 0xFFF#64 ∧
    (va.extractLsb' 47 17 = 0x1FFFF#17 → 256 ≤ (pml4Index va).toNat) ∧
    (va.extractLsb' 47 17 = 0#17 → (pml4Index va).toNat ≤ 255)

/-- `DECOMPOSE` gives the five fields; their weighted sum is the low 48 bits; and every five fields come from exactly the
addresses that differ in bits 63:48 (rules R125, R126). -/
def Obligations.DecomposeReconstructsTheLowBits : Prop :=
  ∀ va : Word,
    decompose va = ⟨pml4Index va, pdptIndex va, pdIndex va, ptIndex va, pageOffset va⟩ ∧
    (decompose va).pml4Index.toNat * 2 ^ 39 + (decompose va).pdptIndex.toNat * 2 ^ 30 +
        (decompose va).pdIndex.toNat * 2 ^ 21 + (decompose va).ptIndex.toNat * 2 ^ 12 +
        (decompose va).pageOffset.toNat = va.toNat % 2 ^ 48 ∧
    va.toNat % 2 ^ 48 = (va &&& 0x0000FFFFFFFFFFFF#64).toNat ∧
    ∀ g : VaFields, decompose va = g ↔
      ∃ upper : BitVec 16, va = upper ++ g.pml4Index ++ g.pdptIndex ++ g.pdIndex ++ g.ptIndex ++ g.pageOffset

/-- `OFFSET_2M` and `OFFSET_1G` are the source's sums of scaled indices, which are bits 20:0 and 29:0 of the address
(rules R129, R176, R177). -/
def Obligations.HugeOffsetsAreTheLowBits : Prop :=
  ∀ va : Word,
    (offset2m va).toNat = (ptIndex va).toNat * 2 ^ 12 + (pageOffset va).toNat ∧
    (offset2m va).setWidth 64 = va &&& 0x1FFFFF#64 ∧
    (offset1g va).toNat = (pdIndex va).toNat * 2 ^ 21 + (ptIndex va).toNat * 2 ^ 12 + (pageOffset va).toNat ∧
    (offset1g va).setWidth 64 = va &&& 0x3FFFFFFF#64

/-- `IS_CANONICAL` says whether bits 63:48 are a sign extension of bit 47: bits 63:47 are all zero or all one, which are the two
ranges of rule R127. -/
def Obligations.IsCanonicalIsTheTwoRanges : Prop :=
  ∀ va : Word,
    (isCanonical va = true ↔ va = (va.extractLsb' 0 48).signExtend 64) ∧
    (isCanonical va = true ↔ va.extractLsb' 47 17 = 0#17 ∨ va.extractLsb' 47 17 = 0x1FFFF#17) ∧
    (isCanonical va = true ↔ va.toNat ≤ 0x00007FFFFFFFFFFF ∨ 0xFFFF800000000000 ≤ va.toNat)

/-- Each flag function gives its bit of the entry, for every operand (rules R140 to R143). -/
def Obligations.FlagFunctionsExtractTheirBit : Prop :=
  ∀ raw : Word,
    (BitVec.ofBool (present raw)).setWidth 64 = raw &&& 1#64 ∧
    (BitVec.ofBool (writable raw)).setWidth 64 = (raw >>> 1) &&& 1#64 ∧
    (BitVec.ofBool (user raw)).setWidth 64 = (raw >>> 2) &&& 1#64 ∧
    (BitVec.ofBool (pageSize raw)).setWidth 64 = (raw >>> 7) &&& 1#64

/-- `DECODE` gives the five decoded fields, for every value of the entry, and two entries that agree under
`0x000F_FFFF_FFFF_F087` decode to the same record (rules R145, R146). -/
def Obligations.DecodeDependsOnlyOnTheModelledBits : Prop :=
  ∀ raw : Word,
    decodeEntry raw = { present := raw.getLsbD 0, writable := raw.getLsbD 1, user := raw.getLsbD 2,
                        pageSize := raw.getLsbD 7, physicalBase := raw &&& 0x000FFFFFFFFFF000#64 } ∧
    ∀ raw' : Word, raw &&& 0x000FFFFFFFFFF087#64 = raw' &&& 0x000FFFFFFFFFF087#64 →
      decodeEntry raw' = decodeEntry raw

/-- `PHYSICAL_BASE`, `NEXT_BASE` and `ROOT_BASE` are bits 51:12 of their operand in place, and every such base is a multiple of
4096 below `2^52` (rules R144, R171, R172; for `ROOT_BASE`, rule R170, the mask is the spec's own decision D3, log entry 6). -/
def Obligations.TableBasesAreMaskedAndAligned : Prop :=
  ∀ x : Word,
    physicalBase x = x &&& 0x000FFFFFFFFFF000#64 ∧ nextBase x = x &&& 0x000FFFFFFFFFF000#64 ∧
    rootBase x = x &&& 0x000FFFFFFFFFF000#64 ∧
    (x &&& 0x000FFFFFFFFFF000#64).toNat % 4096 = 0 ∧ (x &&& 0x000FFFFFFFFFF000#64).toNat < 2 ^ 52

/-- `ENTRY_ADDR` is `base + index * 8`; for a table base it is the bitwise or, a multiple of 8 inside the table's 4 KiB and
below `2^52` (rule R173). -/
def Obligations.EntryAddressStaysInItsTable : Prop :=
  ∀ (base : Word) (index : BitVec 9),
    entryAddr base index = base + index.setWidth 64 * 8#64 ∧
    (base &&& 0x000FFFFFFFFFF000#64 = base →
      entryAddr base index = base ||| (index.setWidth 64 <<< 3) ∧
        (entryAddr base index).toNat = base.toNat + index.toNat * 8 ∧ (entryAddr base index).toNat % 8 = 0 ∧
        base.toNat ≤ (entryAddr base index).toNat ∧ (entryAddr base index).toNat ≤ base.toNat + 4088 ∧
        (entryAddr base index).toNat < 2 ^ 52)

/-- `BASE_2M` and `BASE_1G` are bits 51:21 and 51:30 of the entry, which are its physical base with bits 20:12 or 29:12
cleared, aligned to 2 MiB and 1 GiB (rules R174, R175). -/
def Obligations.HugeBasesDropTheirLowBits : Prop :=
  ∀ raw : Word,
    (base2m raw = raw &&& 0x000FFFFFFFE00000#64 ∧ base2m raw = physicalBase raw &&& ~~~(0x1FF000#64) ∧
      (base2m raw).toNat % 2 ^ 21 = 0 ∧ (base2m raw).toNat < 2 ^ 52) ∧
    (base1g raw = raw &&& 0x000FFFFFC0000000#64 ∧ base1g raw = physicalBase raw &&& ~~~(0x3FFFF000#64) ∧
      (base1g raw).toNat % 2 ^ 30 = 0 ∧ (base1g raw).toNat < 2 ^ 52)

/-- The three compositions are base plus offset, which is the bitwise or with no carry, below `2^52`: the high bits come from
the entry, the low bits from the virtual address (rules R178 to R180, R188). -/
def Obligations.CompositionsTakeHighBitsFromTheEntry : Prop :=
  ∀ raw va : Word,
    (compose4k raw va = physicalBase raw + (pageOffset va).setWidth 64 ∧
      compose4k raw va = (raw &&& 0x000FFFFFFFFFF000#64) ||| (va &&& 0xFFF#64) ∧
      (compose4k raw va).toNat = (raw &&& 0x000FFFFFFFFFF000#64).toNat + (pageOffset va).toNat ∧
      (compose4k raw va).extractLsb' 0 12 = va.extractLsb' 0 12 ∧
      (compose4k raw va).extractLsb' 12 40 = raw.extractLsb' 12 40 ∧ (compose4k raw va).toNat < 2 ^ 52) ∧
    (compose2m raw va = base2m raw + (offset2m va).setWidth 64 ∧
      compose2m raw va = (raw &&& 0x000FFFFFFFE00000#64) ||| (va &&& 0x1FFFFF#64) ∧
      (compose2m raw va).toNat = (raw &&& 0x000FFFFFFFE00000#64).toNat +
        ((ptIndex va).toNat * 2 ^ 12 + (pageOffset va).toNat) ∧
      (compose2m raw va).extractLsb' 0 21 = va.extractLsb' 0 21 ∧
      (compose2m raw va).extractLsb' 21 31 = raw.extractLsb' 21 31 ∧ (compose2m raw va).toNat < 2 ^ 52) ∧
    (compose1g raw va = base1g raw + (offset1g va).setWidth 64 ∧
      compose1g raw va = (raw &&& 0x000FFFFFC0000000#64) ||| (va &&& 0x3FFFFFFF#64) ∧
      (compose1g raw va).toNat = (raw &&& 0x000FFFFFC0000000#64).toNat +
        ((pdIndex va).toNat * 2 ^ 21 + (ptIndex va).toNat * 2 ^ 12 + (pageOffset va).toNat) ∧
      (compose1g raw va).extractLsb' 0 30 = va.extractLsb' 0 30 ∧
      (compose1g raw va).extractLsb' 30 22 = raw.extractLsb' 30 22 ∧ (compose1g raw va).toNat < 2 ^ 52)

/-! ### The ten entry kinds -/

/-- A not-present entry executed at its level enters `Failed(NotPresent)` at that level with the raw entry; operands and
trace stay, no read is made and nothing else changes (rules R210, R212, R215, R218, R256; that the failure carries the raw entry
is the spec's own decision D6, log entry 16, DEDUCED). -/
def Obligations.NotPresentEntriesFail : Prop :=
  ∀ (s : State) (w : Walk) (raw held : Word),
    (s.walker = .atPml4 w held → exec (.pml4eNp raw) s =
      .next { s with walker := .failed w.va w.tb .notPresent (some .pml4) (some raw) none w.steps }) ∧
    (s.walker = .atPdpt w → exec (.pdpteNp raw) s =
      .next { s with walker := .failed w.va w.tb .notPresent (some .pdpt) (some raw) none w.steps }) ∧
    (s.walker = .atPd w → exec (.pdeNp raw) s =
      .next { s with walker := .failed w.va w.tb .notPresent (some .pd) (some raw) none w.steps }) ∧
    (s.walker = .atPt w → exec (.pteNp raw) s =
      .next { s with walker := .failed w.va w.tb .notPresent (some .pt) (some raw) none w.steps })

/-- A table pointer executed at its level writes `tbl` with bits 51:12 of the entry and goes one level down; operands, reader
and trace stay, no read is made and nothing else changes (rules R211, R214, R217). -/
def Obligations.TableEntriesDescend : Prop :=
  ∀ (s : State) (w : Walk) (raw held : Word),
    (s.walker = .atPml4 w held → exec (.pml4eTable raw) s =
      .next { s with walker := .atPdpt { w with tbl := raw &&& 0x000FFFFFFFFFF000#64 } }) ∧
    (s.walker = .atPdpt w → exec (.pdpteTable raw) s =
      .next { s with walker := .atPd { w with tbl := raw &&& 0x000FFFFFFFFFF000#64 } }) ∧
    (s.walker = .atPd w → exec (.pdeTable raw) s =
      .next { s with walker := .atPt { w with tbl := raw &&& 0x000FFFFFFFFFF000#64 } })

/-- A leaf executed at its level enters `Resolved` with the high bits of the entry and the low bits of `va`; operands and
trace stay, no read is made and nothing else changes (rules R213, R216, R219). -/
def Obligations.LeafEntriesResolve : Prop :=
  ∀ (s : State) (w : Walk) (raw : Word),
    (s.walker = .atPdpt w → exec (.pdptePage1g raw) s =
      .next { s with walker := .resolved w.va w.tb ((raw &&& 0x000FFFFFC0000000#64) ||| (w.va &&& 0x3FFFFFFF#64)) w.steps }) ∧
    (s.walker = .atPd w → exec (.pdePage2m raw) s =
      .next { s with walker := .resolved w.va w.tb ((raw &&& 0x000FFFFFFFE00000#64) ||| (w.va &&& 0x1FFFFF#64)) w.steps }) ∧
    (s.walker = .atPt w → exec (.ptePage4k raw) s =
      .next { s with walker := .resolved w.va w.tb ((raw &&& 0x000FFFFFFFFFF000#64) ||| (w.va &&& 0xFFF#64)) w.steps })

/-- An entry kind is executed only where the walker stands at its level; anywhere else its meaning stops by name (the
model's own, from rules R5, R95 and R203 to R206; log entry 5). -/
def Obligations.EntriesStopOutsideTheirLevel : Prop :=
  ∀ (s : State) (raw : Word),
    ((∀ w held, s.walker ≠ .atPml4 w held) → exec (.pml4eNp raw) s = .refused .entryOutOfPlace ∧
      exec (.pml4eTable raw) s = .refused .entryOutOfPlace) ∧
    ((∀ w, s.walker ≠ .atPdpt w) → exec (.pdpteNp raw) s = .refused .entryOutOfPlace ∧
      exec (.pdptePage1g raw) s = .refused .entryOutOfPlace ∧ exec (.pdpteTable raw) s = .refused .entryOutOfPlace) ∧
    ((∀ w, s.walker ≠ .atPd w) → exec (.pdeNp raw) s = .refused .entryOutOfPlace ∧
      exec (.pdePage2m raw) s = .refused .entryOutOfPlace ∧ exec (.pdeTable raw) s = .refused .entryOutOfPlace) ∧
    ((∀ w, s.walker ≠ .atPt w) → exec (.pteNp raw) s = .refused .entryOutOfPlace ∧
      exec (.ptePage4k raw) s = .refused .entryOutOfPlace)

/-- What the walk does after an entry depends only on the bits that rule R152 lists for the level: entries that agree under
them lead to the same state when present, and are both not present otherwise. -/
def Obligations.IgnoredEntryBitsHaveNoEffect : Prop :=
  ∀ (level : Level) (raw raw' : Word) (s : State),
    raw &&& relevantMask level raw = raw' &&& relevantMask level raw →
    (present raw = true → exec (decode level raw) s = exec (decode level raw') s) ∧
    (present raw = false → present raw' = false ∧ classify level raw = classify level raw')

/-! ### Steps -/

/-- When the host makes no move, the step in a walk is `exec` of the entry decoded at the level, on the state with that move
consumed and, at PDPT, PD and PT, with the entry just read: its read in the history, its step in the trace, its answer used
(rules R203 to R207; the moves are log entry 1, the history log entry 13, the answer used log entry 2). -/
def Obligations.StepExecutesTheFetchedEntry : Prop :=
  ∀ (s : State) (rest : List HostInput) (w : Walk) (v : Word) (reader : Reader), HostIdle s rest →
    (s.walker = .atPml4 w v → step s = exec (decode .pml4 v) { s with inputs := rest }) ∧
    (s.walker = .atPdpt w →
      memRead w.reader s.mem (entryAddr w.tbl (pdptIndex w.va)) = some (.ok v, reader) →
      step s = exec (decode .pdpt v)
        { s with
          inputs := rest
          reads := s.reads ++ [⟨entryAddr w.tbl (pdptIndex w.va), .ok v⟩]
          walker := .atPdpt { w with
            reader := reader
            steps := w.steps ++ [⟨.pdpt, w.tbl, pdptIndex w.va, v, decodeEntry v⟩] } }) ∧
    (s.walker = .atPd w →
      memRead w.reader s.mem (entryAddr w.tbl (pdIndex w.va)) = some (.ok v, reader) →
      step s = exec (decode .pd v)
        { s with
          inputs := rest
          reads := s.reads ++ [⟨entryAddr w.tbl (pdIndex w.va), .ok v⟩]
          walker := .atPd { w with
            reader := reader
            steps := w.steps ++ [⟨.pd, w.tbl, pdIndex w.va, v, decodeEntry v⟩] } }) ∧
    (s.walker = .atPt w →
      memRead w.reader s.mem (entryAddr w.tbl (ptIndex w.va)) = some (.ok v, reader) →
      step s = exec (decode .pt v)
        { s with
          inputs := rest
          reads := s.reads ++ [⟨entryAddr w.tbl (ptIndex w.va), .ok v⟩]
          walker := .atPt { w with
            reader := reader
            steps := w.steps ++ [⟨.pt, w.tbl, ptIndex w.va, v, decodeEntry v⟩] } })

/-- The step from `Start` takes an admitted request: the trace and the history begin empty, the PML4 entry at
`ENTRY_ADDR(ROOT_BASE(tb), PML4_INDEX(va))` is read once, and the walker is `AtPML4` with it, `Failed(ReadFailure, PML4)` on
an error, or still in `Start` with the request taken while there is no answer (rule R202; the last case from rule R303, its step
being the model's, log entry 12; the moves are log entry 1, the history of one translation log entry 13). -/
def Obligations.StartStepReadsThePml4Entry : Prop :=
  ∀ (s : State) (va tb : Word) (reader : Reader) (rest : List HostInput),
    s.walker = .start none → s.inputs = .request ⟨va, tb, reader⟩ :: rest → Admitted s.policy va →
    (∀ v reader', memRead reader s.mem (entryAddr (rootBase tb) (pml4Index va)) = some (.ok v, reader') →
      step s = .next { s with
        inputs := rest
        reads := [⟨entryAddr (rootBase tb) (pml4Index va), .ok v⟩]
        walker := .atPml4 ⟨va, tb, reader', rootBase tb, [⟨.pml4, rootBase tb, pml4Index va, v, decodeEntry v⟩]⟩ v }) ∧
    (∀ e reader', memRead reader s.mem (entryAddr (rootBase tb) (pml4Index va)) = some (.err e, reader') →
      step s = .next { s with
        inputs := rest
        reads := [⟨entryAddr (rootBase tb) (pml4Index va), .err e⟩]
        walker := .failed va tb .readFailure (some .pml4) none (some e) [] }) ∧
    (memRead reader s.mem (entryAddr (rootBase tb) (pml4Index va)) = none →
      step s = .next { s with inputs := rest, reads := [], walker := .start (some ⟨va, tb, reader⟩) })

/-- An error of the reader at PDPT, PD or PT enters `Failed(ReadFailure)` at that level with the host's error unchanged and
the trace of the levels before it: the failing level has no step, and its read is in the history (rules R51, R207, R252; that the
failure carries the error is the spec's own decision D6, log entry 16, DEDUCED). -/
def Obligations.ReadErrorEndsTheWalk : Prop :=
  ∀ (s : State) (rest : List HostInput) (w : Walk) (e : HostReadError) (reader : Reader), HostIdle s rest →
    (s.walker = .atPdpt w →
      memRead w.reader s.mem (entryAddr w.tbl (pdptIndex w.va)) = some (.err e, reader) →
      step s = .next { s with
        inputs := rest
        reads := s.reads ++ [⟨entryAddr w.tbl (pdptIndex w.va), .err e⟩]
        walker := .failed w.va w.tb .readFailure (some .pdpt) none (some e) w.steps }) ∧
    (s.walker = .atPd w →
      memRead w.reader s.mem (entryAddr w.tbl (pdIndex w.va)) = some (.err e, reader) →
      step s = .next { s with
        inputs := rest
        reads := s.reads ++ [⟨entryAddr w.tbl (pdIndex w.va), .err e⟩]
        walker := .failed w.va w.tb .readFailure (some .pd) none (some e) w.steps }) ∧
    (s.walker = .atPt w →
      memRead w.reader s.mem (entryAddr w.tbl (ptIndex w.va)) = some (.err e, reader) →
      step s = .next { s with
        inputs := rest
        reads := s.reads ++ [⟨entryAddr w.tbl (ptIndex w.va), .err e⟩]
        walker := .failed w.va w.tb .readFailure (some .pt) none (some e) w.steps })

/-- While a read is not answered the walker stays in its state, neither resolved nor failed, and no result is delivered (rules
R51, R303). Rule R201 says that the walker's step does not take place there; that the model's `step` then answers the same state,
with the host's move consumed, is the model's own stuttering step, log entry 12 (DEDUCED). -/
def Obligations.UnansweredReadLeavesTheWalker : Prop :=
  ∀ (s : State) (rest : List HostInput), HostIdle s rest →
    (∀ r, s.walker = .start (some r) →
      memRead r.reader s.mem (entryAddr (rootBase r.tb) (pml4Index r.va)) = none →
      step s = .next { s with inputs := rest } ∧ s.result = none) ∧
    (∀ w, s.walker = .atPdpt w → memRead w.reader s.mem (entryAddr w.tbl (pdptIndex w.va)) = none →
      step s = .next { s with inputs := rest } ∧ s.result = none) ∧
    (∀ w, s.walker = .atPd w → memRead w.reader s.mem (entryAddr w.tbl (pdIndex w.va)) = none →
      step s = .next { s with inputs := rest } ∧ s.result = none) ∧
    (∀ w, s.walker = .atPt w → memRead w.reader s.mem (entryAddr w.tbl (ptIndex w.va)) = none →
      step s = .next { s with inputs := rest } ∧ s.result = none)

/-- Under `reject` a request for a non-canonical address is answered with `Failed(InvalidInput)`, no level, an empty trace and
no read; under `truncate` no request and no translation ends so (rules R202, R253). The policy is the spec's own open parameter,
decision D4 (log entry 10, DESIGN CHOICE); no level and an empty trace are the spec's own decision D20 (log entry 16, DEDUCED). -/
def Obligations.NonCanonicalRequestFollowsThePolicy : Prop :=
  (∀ (s : State) (va tb : Word) (reader : Reader) (rest : List HostInput),
    s.walker = .start none → s.policy = .reject → isCanonical va = false →
    exec (.translate va tb reader) s =
      .next { s with reads := [], walker := .failed va tb .invalidInput none none none [] } ∧
    (s.inputs = .request ⟨va, tb, reader⟩ :: rest → step s =
      .next { s with inputs := rest, reads := [], walker := .failed va tb .invalidInput none none none [] })) ∧
  (∀ (s t : State) (va tb : Word) (reader : Reader) (level : Option Level) (steps : List WalkStep)
    (raw : Option Word) (err : Option HostReadError),
    s.walker = .start none → s.policy = .truncate →
    exec (.translate va tb reader) s = .next t ∨
      (∃ rest, s.inputs = .request ⟨va, tb, reader⟩ :: rest ∧ step s = .next t) →
    t.result ≠ some (.error .invalidInput level steps raw err))

/-- A request presented anywhere but in `Start` with no request taken is not accepted, has no effect and is not queued; nor has
`TRANSLATE` an effect there. Rule R305 says so of a request outside `Start`, by the spec's own decision D9; that the move is
consumed, that a request is turned away in `Start` while another is taken, and the same of `TRANSLATE` are the model's choice, log
entry 17 (DESIGN CHOICE). -/
def Obligations.RequestWhileBusyHasNoEffect : Prop :=
  ∀ (s : State) (va tb : Word) (reader : Reader), s.walker ≠ .start none →
    exec (.translate va tb reader) s = .next s ∧
    ∀ rest, s.inputs = .request ⟨va, tb, reader⟩ :: rest → step s = .next { s with inputs := rest }

/-- In `Resolved` and `Failed` a step without a move of the host changes nothing but the consumed move: rule R208 gives no walk
step there, and the stuttering step is the model's, log entry 12 (DEDUCED). `Retire` there returns the walker to `Start` with no
register holding a value and no other effect (rule R306); that the history of reads is emptied with them is log entry 13 (DESIGN
CHOICE). Rule R306 has no `Retire` in another state; that the model consumes it there without effect is log entry 17 (DESIGN
CHOICE). -/
def Obligations.ResultIsHeldUntilRetired : Prop :=
  ∀ (s : State) (rest : List HostInput),
    (s.walker.Terminal → HostIdle s rest → step s = .next { s with inputs := rest }) ∧
    (s.walker.Terminal → s.inputs = .retire :: rest →
      step s = .next { s with inputs := rest, walker := .start none, reads := [] }) ∧
    (¬ s.walker.Terminal → s.inputs = .retire :: rest → step s = .next { s with inputs := rest })

/-- The result a terminal state gives the host is the REPORT or ERROR of its registers, and no other state gives one
(rules R30, R31, R92; the fields `raw` and `err` of ERROR are the spec's own decision D6, log entry 16, DEDUCED). -/
def Obligations.ResultIsTheTerminalRegisters : Prop :=
  ∀ s : State,
    (∀ va tb pa steps, s.walker = .resolved va tb pa steps → s.result = some (.report pa steps)) ∧
    (∀ va tb kind level raw err steps, s.walker = .failed va tb kind level raw err steps →
      s.result = some (.error kind level steps raw err)) ∧
    (¬ s.walker.Terminal → s.result = none)

/-- Reset at any moment puts the walker in `Start` with no register holding a value, delivers no result and writes no memory;
the policy and the host's later moves stay (rules R34, R290: the spec's own decision D8; what the model keeps and that the output
of the functions is emptied are log entry 15, DEDUCED). -/
def Obligations.ResetAbandonsTheTranslation : Prop :=
  ∀ (s : State) (rest : List HostInput), s.inputs = .reset :: rest →
    step s = .next { s with inputs := rest, walker := .start none, reads := [], out := none }

/-- The state after reset: `Start`, no request taken, no result (rule R34), no read made (R291; the history is log entry 13); the
default policy (rule R7, decision D4; as a field of State log entry 10); memory with nothing listed, no move of the host to come
and no output driven (the model's own, log entries 9, 1 and 4). The last clause is the model's own too: R34 and R201 give `Start`
no step without a request, and that `step` then answers the same state is its stuttering step, log entries 7 and 12, over the
empty list of moves of log entry 1. -/
def Obligations.ResetStateIsStart : Prop :=
  State.reset.walker = .start none ∧ State.reset.reads = [] ∧ State.reset.result = none ∧
    State.reset.policy = .truncate ∧ State.reset.mem = [] ∧ State.reset.inputs = [] ∧ State.reset.out = none ∧
    step State.reset = .next State.reset

/-- No step ends in a fault or a refusal: every state has a next state, whatever the walker, the memory and the host's moves.
Rule R15 says that there is no undefined behaviour, rule R273 that `Failed` is no fault of the machine. Rule R15 does not give
every state a step: a terminal walker has no walk step (R201, R208) and a walker before a read never answered is stuck (R201,
R303); that `step` answers a next state there too is the model's own stuttering step, log entry 12 (DEDUCED), with the host's
moves of log entry 1. -/
def Obligations.EveryStepAnswersANextState : Prop := ∀ s : State, ∃ t : State, step s = .next t

/-- Without `Retire` and reset the position of the walk only moves forward through
`Start, AtPML4, AtPDPT, AtPD, AtPT, Resolved, Failed`, or stays as it is (the stuttering step of log entry 12); no level is
visited again (rules R24, R239). -/
def Obligations.WalkMovesOnlyForward : Prop :=
  ∀ s t : State, step s = .next t → (∀ rest, s.inputs ≠ .retire :: rest) → (∀ rest, s.inputs ≠ .reset :: rest) →
    t.walker = s.walker ∨ walkerCode s.walker < walkerCode t.walker ∨
      (s.walker = .start none ∧ ∃ r, t.walker = .start (some r))

/-! ### Frames and invariants -/

/-- No operation writes memory: every byte reads as before (rule R57). -/
def Obligations.NoOperationWritesMemory : Prop :=
  ∀ (i : Instr) (s t : State), exec i s = .next t → (∀ a, t.mem.read a = s.mem.read a) ∧ t.mem = s.mem

/-- No operation writes the policy or the host's moves; the functions leave the walker and its history alone (R101); the entry
kinds make no read (R210 to R219); the entry kinds and `TRANSLATE` leave the output of the functions alone (R210 to R219, R235).
The fields are the model's own: moves, log entry 1; output, log entry 4; policy, log entry 10. -/
def Obligations.OperationsKeepWhatTheyDoNotWrite : Prop :=
  ∀ (i : Instr) (s t : State), exec i s = .next t →
    (t.policy = s.policy ∧ t.inputs = s.inputs) ∧
    (encode i ≠ none → t.reads = s.reads ∧ t.out = s.out) ∧
    (encode i = none → (∀ va tb reader, i ≠ .translate va tb reader) → t.walker = s.walker ∧ t.reads = s.reads) ∧
    (∀ va tb reader, i = .translate va tb reader → t.out = s.out)

/-- Memory changes in a step only where another agent writes or unmaps one byte, which leaves the walk and every other byte
alone; from memory in its canonical form the byte stored then reads as the byte of the store, and the byte unmapped is no longer
readable. The policy never changes. The block itself writes nothing (R57), other agents may change memory during a walk (R66,
R304), and an address may be inaccessible (R50); that they do so one byte per move is log entry 14, the moves log entry 1, the
list of bytes log entry 9. -/
def Obligations.StepWritesMemoryOnlyForOtherAgents : Prop :=
  ∀ s t : State, step s = .next t → t.policy = s.policy ∧
    ((∀ addr byte rest, s.inputs ≠ .store addr byte :: rest) → (∀ addr rest, s.inputs ≠ .unmap addr :: rest) →
      ∀ a, t.mem.read a = s.mem.read a) ∧
    (∀ addr byte rest, s.inputs = .store addr byte :: rest →
      t.walker = s.walker ∧ t.reads = s.reads ∧ (∀ a, a ≠ addr.toNat → t.mem.read a = s.mem.read a) ∧
        (s.mem.wf = true → t.mem.read addr.toNat = some byte)) ∧
    (∀ addr rest, s.inputs = .unmap addr :: rest →
      t.walker = s.walker ∧ t.reads = s.reads ∧ (∀ a, a ≠ addr.toNat → t.mem.read a = s.mem.read a) ∧
        (s.mem.wf = true → t.mem.read addr.toNat = none))

/-- Every step keeps the invariants of rule R36, from every state that has them. `State.Sound` also relates the history of reads
to the trace; that history is of one translation, log entry 13. The traces of the failures follow log entry 16 (DEDUCED). -/
def Obligations.StepKeepsTheWalkSound : Prop := ∀ s t : State, s.Sound → step s = .next t → t.Sound

/-- Every step keeps memory in its canonical form. The list of bytes and its form are the model's own, log entry 9. -/
def Obligations.StepKeepsMemoryCanonical : Prop :=
  ∀ s t : State, s.mem.wf = true → step s = .next t → t.mem.wf = true

/-- The state after reset has both invariants. In `Start` with no request taken `State.Sound` asks that no read is in the history
(rules R34, R36; the history is log entry 13). That its memory is canonical rests on log entry 9 (DESIGN CHOICE) alone: the list of
bytes, its form, and nothing listed at reset. -/
def Obligations.ResetHasTheInvariants : Prop := State.reset.Sound ∧ State.reset.mem.wf = true

/-- In a sound state every address read is a multiple of 8 below `2^52` whose eight bytes lie in one 4 KiB table, every
current table base is 4 KiB-aligned below `2^52`, and a resolved address is below `2^52` (rules R36 item 1, R53, R58, R171,
R189; for the root table the mask is the spec's own decision D3, log entry 6; the history is log entry 13). -/
def Obligations.SoundAddressesAreAlignedAndBounded : Prop :=
  ∀ s : State, s.Sound →
    (∀ ev ∈ s.reads, IsEntryAddr ev.addr ∧ ev.addr.toNat / 4096 = (ev.addr.toNat + 7) / 4096) ∧
    (∀ level w, walkAt level s.walker = some w → IsTableBase w.tbl) ∧
    (∀ va tb pa steps, s.walker = .resolved va tb pa steps → pa.toNat < 2 ^ 52)

/-- A step makes at most one read, and it is at the address that the position of the walk gives (rules R24, R54, R60, R61, R201).
With no move of the host: the entry of the level in the current table. With a request taken in `Start`: the PML4 entry in the root
table, as the first of a history that begins empty (R202). With any other move, and with a request not taken: no read, the history
staying or being emptied. The moves are log entry 1, the history of one translation log entry 13. -/
def Obligations.EachStepReadsAtMostOnce : Prop :=
  ∀ s t : State, step s = .next t →
    (∀ rest, HostIdle s rest →
      t.reads = s.reads ∨ ∃ addr answer, s.fetchAddr = some addr ∧ t.reads = s.reads ++ [⟨addr, answer⟩]) ∧
    (∀ r rest, s.inputs = .request r :: rest → s.walker = .start none →
      t.reads = [] ∨ ∃ answer, t.reads = [⟨entryAddr (rootBase r.tb) (pml4Index r.va), answer⟩]) ∧
    (∀ move rest, s.inputs = move :: rest → move ≠ .idle →
      (∀ r, move = .request r → s.walker ≠ .start none) → t.reads = s.reads ∨ t.reads = [])

/-! ### The translation as a whole -/

/-- `TRANSLATE` as one function and the steps taken from `Start` agree: five steps, the first of which takes the request, leave
exactly the state that the whole operation leaves, for every reader. Rules R230 and R231 ask the two forms to agree on the result
and the reads; rule R239 gives at most five steps, and only where every read is answered. That exactly five steps serve for every
walk is the model's own: a walk that ends sooner, or whose reader does not answer, stutters in the steps left over, and `TRANSLATE`
leaves a walker that waits in its state (log entry 12, DEDUCED), over the list of moves of log entry 1. -/
def Obligations.TranslateEqualsTheSteps : Prop :=
  ∀ (s : State) (va tb : Word) (reader : Reader), s.walker = .start none → s.inputs = [] →
    runSteps 5 { s with inputs := [.request ⟨va, tb, reader⟩] } = exec (.translate va tb reader) s

/-- With a reader that answers each read, a translation from `Start` ends in a terminal state with a result, after at most
four reads, changing only the walker and the history (rules R230, R237, R239; a reader that answers is one of the two forms of log
entry 2). -/
def Obligations.TranslateEndsWhenReadsAreAnswered : Prop :=
  ∀ (s : State) (va tb : Word) (reader : Reader), s.walker = .start none → answersReads Config.maxReads reader →
    ∃ t : State, exec (.translate va tb reader) s = .next t ∧ t.walker.Terminal ∧ t.result ≠ none ∧
      t.reads.length ≤ Config.maxReads ∧ t = { s with walker := t.walker, reads := t.reads }

/-- The twelve outcomes of rule R236, with the reads issued and the trace steps of each; without a result the walk stands
before an unanswered read (rules R236, R237; log entry 12). That NotPresent has the step of its level as its last step is the
spec's own decision D5, that InvalidInput has no level and an empty trace its decision D20 (log entry 16, DEDUCED; unsafe for just
the count of steps on NotPresent). -/
def Obligations.OutcomesHaveTheirReadAndStepCounts : Prop :=
  ∀ (s t : State) (va tb : Word) (reader : Reader), s.walker = .start none →
    exec (.translate va tb reader) s = .next t →
    match t.result with
    | none => ¬ t.walker.Terminal ∧ ∃ answers, reader = .script answers ∧ answers.length < 4
    | some (.report _ steps) =>
      ∃ last, steps.getLast? = some last ∧ t.reads.length = steps.length ∧
        ((classify last.level last.raw = .pdptePage1g ∧ steps.length = 2) ∨
          (classify last.level last.raw = .pdePage2m ∧ steps.length = 3) ∨
          (classify last.level last.raw = .ptePage4k ∧ steps.length = 4))
    | some (.error .notPresent (some level) steps raw err) =>
      steps.length = levelCode level + 1 ∧ t.reads.length = levelCode level + 1 ∧
        (steps.getLast?.map fun st => st.raw) = raw ∧ err = none
    | some (.error .readFailure (some level) steps raw err) =>
      steps.length = levelCode level ∧ t.reads.length = levelCode level + 1 ∧ raw = none ∧ err.isSome = true
    | some (.error .invalidInput none steps raw err) =>
      s.policy = .reject ∧ isCanonical va = false ∧ steps = [] ∧ t.reads = [] ∧ raw = none ∧ err = none
    | some (.error _ _ _ _ _) => False

/-- The 4 KiB leaf: four entries that lead down to a present PT entry resolve to its physical base plus the page offset, with
four reads at the addresses of the chain (rule R238 item 1). -/
def Obligations.FourLevelWalkResolvesTo4kPage : Prop :=
  ∀ (s : State) (va tb e1 e2 e3 e4 : Word) (more : List ReadAnswer), s.walker = .start none → Admitted s.policy va →
    LeadsDown .pml4 e1 → LeadsDown .pdpt e2 → LeadsDown .pd e3 → present e4 = true →
    ∃ t pa steps, exec (.translate va tb (.script ([.ok e1, .ok e2, .ok e3, .ok e4] ++ more))) s = .next t ∧
      t.result = some (.report pa steps) ∧ pa.toNat = (physicalBase e4).toNat + (pageOffset va).toNat ∧
      t.reads = [⟨entryAddr (rootBase tb) (pml4Index va), .ok e1⟩, ⟨entryAddr (physicalBase e1) (pdptIndex va), .ok e2⟩,
        ⟨entryAddr (physicalBase e2) (pdIndex va), .ok e3⟩, ⟨entryAddr (physicalBase e3) (ptIndex va), .ok e4⟩]

/-- The 2 MiB leaf: a present PD entry with the huge flag resolves to its 2 MiB-aligned base plus `pt_index * 4096 +
page_offset`, and the reader is called exactly 3 times (rule R238 item 2). -/
def Obligations.HugePdEntryResolvesTo2mPage : Prop :=
  ∀ (s : State) (va tb e1 e2 e3 : Word) (more : List ReadAnswer), s.walker = .start none → Admitted s.policy va →
    LeadsDown .pml4 e1 → LeadsDown .pdpt e2 → present e3 = true → pageSize e3 = true →
    ∃ t pa steps, exec (.translate va tb (.script ([.ok e1, .ok e2, .ok e3] ++ more))) s = .next t ∧
      t.result = some (.report pa steps) ∧
      pa.toNat = (base2m e3).toNat + ((ptIndex va).toNat * 4096 + (pageOffset va).toNat) ∧
      t.reads = [⟨entryAddr (rootBase tb) (pml4Index va), .ok e1⟩, ⟨entryAddr (physicalBase e1) (pdptIndex va), .ok e2⟩,
        ⟨entryAddr (physicalBase e2) (pdIndex va), .ok e3⟩]

/-- The 1 GiB leaf: a present PDPT entry with the huge flag resolves to its 1 GiB-aligned base plus `pd_index * 2^21 +
pt_index * 2^12 + page_offset`, with only 2 reads (rule R238 item 3). -/
def Obligations.HugePdptEntryResolvesTo1gPage : Prop :=
  ∀ (s : State) (va tb e1 e2 : Word) (more : List ReadAnswer), s.walker = .start none → Admitted s.policy va →
    LeadsDown .pml4 e1 → present e2 = true → pageSize e2 = true →
    ∃ t pa steps, exec (.translate va tb (.script ([.ok e1, .ok e2] ++ more))) s = .next t ∧
      t.result = some (.report pa steps) ∧
      pa.toNat = (base1g e2).toNat + ((pdIndex va).toNat * 2 ^ 21 + (ptIndex va).toNat * 2 ^ 12 + (pageOffset va).toNat) ∧
      t.reads = [⟨entryAddr (rootBase tb) (pml4Index va), .ok e1⟩, ⟨entryAddr (physicalBase e1) (pdptIndex va), .ok e2⟩]

/-- Bits 63:48 of the virtual address enter no field, no fetch address and no physical address: under `truncate`, addresses
that agree in bits 47:0 give the same result and the same reads (rule R128; the policy is the spec's own decision D4, log
entry 10). -/
def Obligations.UpperAddressBitsHaveNoEffect : Prop :=
  ∀ (va va' : Word), va.extractLsb' 0 48 = va'.extractLsb' 0 48 → decompose va = decompose va' ∧
    ∀ (s t : State) (tb : Word) (reader : Reader), s.policy = .truncate → exec (.translate va tb reader) s = .next t →
      ∃ t', exec (.translate va' tb reader) s = .next t' ∧ t'.result = t.result ∧ t'.reads = t.reads ∧
        t'.mem = t.mem ∧ t'.inputs = t.inputs ∧ t'.out = t.out

/-- A translation leaves no mark: after its result is retired, the same request with a reader of unchanged contents gives the
same state again (rules R234, R235), its history of reads too, which begins empty at each request (log entry 13). -/
def Obligations.RepeatedTranslateIsIdentical : Prop :=
  ∀ (s t : State) (va tb : Word) (reader : Reader), s.walker = .start none → answersReads Config.maxReads reader →
    exec (.translate va tb reader) s = .next t → exec (.translate va tb reader) (retire t) = .next t

/-- `withFetchWord` places an entry so that the very next step from the state after reset executes it (the model's own, log
entries 7 and 8). -/
def Obligations.PlacedEntryIsExecutedNext : Prop :=
  ∀ nbits w : Nat, step (State.reset.withFetchWord nbits w) =
    exec (decode .pml4 (entryOfTableWord nbits w)) (State.reset.withFetchWord nbits w)

/-- The number codes of levels, failure kinds and walker states (rules R87 to R89, the spec's own decision D7). -/
def Obligations.CodesAreThoseOfTheSpec : Prop :=
  [levelCode .pml4, levelCode .pdpt, levelCode .pd, levelCode .pt] = [0, 1, 2, 3] ∧
  [failKindCode .notPresent, failKindCode .readFailure, failKindCode .invalidInput] = [0, 1, 2] ∧
  ∀ (taken : Option Request) (w : Walk) (raw va tb pa : Word) (kind : FailKind) (level : Option Level)
    (r : Option Word) (err : Option HostReadError) (steps : List WalkStep),
    [walkerCode (.start taken), walkerCode (.atPml4 w raw), walkerCode (.atPdpt w), walkerCode (.atPd w),
      walkerCode (.atPt w), walkerCode (.resolved va tb pa steps),
      walkerCode (.failed va tb kind level r err steps)] = [0, 1, 2, 3, 4, 5, 6]
end

