-- ==== Sys2Proof/Laws/Bits.lean ====
section
/-! SUPPORT. The bits of the masks, fields and addresses of rule R94: each function's result bit by bit, and the sums
whose addends share no bit. -/

namespace Sys2Proof.Machine

open Sys2Proof

/-- Splitting a 64-bit value into its bytes and assembling them gives it back (rule R52). -/
theorem qwordOfBytes_bytes (v : Word) :
    qwordOfBytes (byteOfQword v 0) (byteOfQword v 1) (byteOfQword v 2) (byteOfQword v 3) (byteOfQword v 4)
      (byteOfQword v 5) (byteOfQword v 6) (byteOfQword v 7) = v := by
  apply BitVec.eq_of_getLsbD_eq
  intro i hi
  simp only [qwordOfBytes, byteOfQword, BitVec.getLsbD_append, BitVec.getLsbD_extractLsb']
  repeat' split
  all_goals rw [decide_eq_true (by omega), Bool.true_and]; congr 1; omega

theorem physBaseMask_getLsbD (i : Nat) : physBaseMask.getLsbD i = decide (12 ≤ i ∧ i < 52) := by
  by_cases hi : i < 64
  · exact (by decide : ∀ i : Fin 64, physBaseMask.getLsbD i = decide (12 ≤ i.1 ∧ i.1 < 52)) ⟨i, hi⟩
  · rw [BitVec.getLsbD_of_ge _ _ (by omega)]; simp; omega

theorem base2mMask_getLsbD (i : Nat) : base2mMask.getLsbD i = decide (21 ≤ i ∧ i < 52) := by
  by_cases hi : i < 64
  · exact (by decide : ∀ i : Fin 64, base2mMask.getLsbD i = decide (21 ≤ i.1 ∧ i.1 < 52)) ⟨i, hi⟩
  · rw [BitVec.getLsbD_of_ge _ _ (by omega)]; simp; omega

theorem base1gMask_getLsbD (i : Nat) : base1gMask.getLsbD i = decide (30 ≤ i ∧ i < 52) := by
  by_cases hi : i < 64
  · exact (by decide : ∀ i : Fin 64, base1gMask.getLsbD i = decide (30 ≤ i.1 ∧ i.1 < 52)) ⟨i, hi⟩
  · rw [BitVec.getLsbD_of_ge _ _ (by omega)]; simp; omega

/-- Bits 51:12 of an entry, in place (rule R144). -/
theorem physicalBase_getLsbD (raw : Word) (i : Nat) :
    (physicalBase raw).getLsbD i = (raw.getLsbD i && decide (12 ≤ i ∧ i < 52)) := by
  rw [physicalBase, BitVec.getLsbD_and, physBaseMask_getLsbD]

/-- Bits 51:21 of an entry, in place (rule R174). -/
theorem base2m_getLsbD (raw : Word) (i : Nat) :
    (base2m raw).getLsbD i = (raw.getLsbD i && decide (21 ≤ i ∧ i < 52)) := by
  rw [base2m, BitVec.getLsbD_and, base2mMask_getLsbD]

/-- Bits 51:30 of an entry, in place (rule R175). -/
theorem base1g_getLsbD (raw : Word) (i : Nat) :
    (base1g raw).getLsbD i = (raw.getLsbD i && decide (30 ≤ i ∧ i < 52)) := by
  rw [base1g, BitVec.getLsbD_and, base1gMask_getLsbD]

/-- Two words with no bit in common: their conjunction is zero (rule R187). -/
theorem and_eq_zero_of_disjoint {x y : Word} (h : ∀ i, i < 64 → x.getLsbD i = true → y.getLsbD i = false) :
    x &&& y = 0#64 := by
  apply BitVec.eq_of_getLsbD_eq
  intro i hi
  have := h i hi
  simp only [BitVec.getLsbD_and, BitVec.getLsbD_zero]
  cases hx : x.getLsbD i
  · rfl
  · simp [this hx]

/-- A word with bits `n` and up zero is below `2^n`. -/
theorem toNat_lt_of_getLsbD {x : Word} {n : Nat} (h : ∀ i, n ≤ i → x.getLsbD i = false) : x.toNat < 2 ^ n := by
  apply Nat.lt_pow_two_of_testBit
  intro i hi
  rw [BitVec.testBit_toNat]
  exact h i hi

/-- A word with bits below `n` zero is a multiple of `2^n`. -/
theorem toNat_mod_of_getLsbD {x : Word} {n : Nat} (h : ∀ i, i < n → x.getLsbD i = false) : x.toNat % 2 ^ n = 0 := by
  apply Nat.eq_of_testBit_eq
  intro i
  rw [Nat.testBit_mod_two_pow, Nat.zero_testBit]
  by_cases hi : i < n
  · simp [BitVec.testBit_toNat, h i hi]
  · simp [hi]

/-- An index times eight is the index shifted left by three (rule R173). -/
theorem setWidth_mul_eight (index : BitVec 9) : index.setWidth 64 * 8#64 = index.setWidth 64 <<< 3 := by
  apply BitVec.eq_of_toNat_eq
  have := index.isLt
  simp [Nat.shiftLeft_eq]

/-- A mask that keeps a word keeps each of its bits. -/
theorem getLsbD_of_masked {x : Word} (h : x &&& physBaseMask = x) {i : Nat} (hi : x.getLsbD i = true) :
    12 ≤ i ∧ i < 52 := by
  rw [← h, BitVec.getLsbD_and, physBaseMask_getLsbD] at hi
  simp only [Bool.and_eq_true, decide_eq_true_eq] at hi
  exact hi.2

/-- The decoded present bit and the mask of rule R100 say the same of bit 0. -/
theorem and_one_eq_zero_iff (raw : Word) : raw &&& 0x01#64 = 0x00#64 ↔ present raw = false := by
  constructor
  · intro h
    have := congrArg (fun x : Word => x.getLsbD 0) h
    simpa [present] using this
  · intro h
    apply and_eq_zero_of_disjoint
    intro i hi hb
    by_cases h0 : i = 0
    · subst h0; simp [present] at h; simp [h] at hb
    · rw [BitVec.getLsbD_one]; simp [h0]

/-- The mask and the match of the two huge kinds of rule R100 say that the present bit and the page size are set. -/
theorem and_huge_eq_iff (raw : Word) :
    raw &&& 0x81#64 = 0x81#64 ↔ present raw = true ∧ pageSize raw = true := by
  have hm : ∀ i : Fin 64, (0x81#64).getLsbD i = decide (i.1 = 0 ∨ i.1 = 7) := by decide
  constructor
  · intro h
    have h0 := congrArg (fun x : Word => x.getLsbD 0) h
    have h7 := congrArg (fun x : Word => x.getLsbD 7) h
    exact ⟨by simpa [present] using h0, by simpa [pageSize] using h7⟩
  · rintro ⟨h0, h7⟩
    apply BitVec.eq_of_getLsbD_eq
    intro i hi
    have := hm ⟨i, hi⟩
    simp only at this
    rw [BitVec.getLsbD_and, this]
    by_cases hb : i = 0 ∨ i = 7
    · rcases hb with rfl | rfl
      · simpa [present] using h0
      · simpa [pageSize] using h7
    · simp [hb]

/-- The mask and the match of the two table kinds that test the page size (rule R100). -/
theorem and_huge_eq_one_iff (raw : Word) :
    raw &&& 0x81#64 = 0x01#64 ↔ present raw = true ∧ pageSize raw = false := by
  have hm : ∀ i : Fin 64, (0x81#64).getLsbD i = decide (i.1 = 0 ∨ i.1 = 7) := by decide
  constructor
  · intro h
    have h0 := congrArg (fun x : Word => x.getLsbD 0) h
    have h7 := congrArg (fun x : Word => x.getLsbD 7) h
    exact ⟨by simpa [present] using h0, by simpa [pageSize] using h7⟩
  · rintro ⟨h0, h7⟩
    apply BitVec.eq_of_getLsbD_eq
    intro i hi
    have := hm ⟨i, hi⟩
    simp only at this
    rw [BitVec.getLsbD_and, this, BitVec.getLsbD_one]
    by_cases hb : i = 0 ∨ i = 7
    · rcases hb with rfl | rfl
      · simpa [present] using h0
      · simpa [pageSize] using h7
    · have h00 : i ≠ 0 := fun h => hb (.inl h)
      have h70 : i ≠ 7 := fun h => hb (.inr h)
      simp [h00, h70]

/-- The mask of rule R100 keeps the present bit. -/
theorem and_one_eq_one_iff (raw : Word) : raw &&& 0x01#64 = 0x01#64 ↔ present raw = true := by
  constructor
  · intro h
    have := congrArg (fun x : Word => x.getLsbD 0) h
    simpa [present] using this
  · intro h
    apply BitVec.eq_of_getLsbD_eq
    intro i hi
    rw [BitVec.getLsbD_and, BitVec.getLsbD_one]
    by_cases h0 : i = 0
    · subst h0; simpa [present] using h
    · simp [h0]

end Sys2Proof.Machine
end

