-- ==== Sys2Proof/Laws/State.lean ====
section
/-! SUPPORT. What each named update of the state leaves in each field: one lemma per field and update. -/

namespace Sys2Proof.Machine

open Sys2Proof

@[simp] theorem State.setWalker_walker (s : State) (w : Walker) : (s.setWalker w).walker = w := rfl
@[simp] theorem State.setWalker_policy (s : State) (w : Walker) : (s.setWalker w).policy = s.policy := rfl
@[simp] theorem State.setWalker_mem (s : State) (w : Walker) : (s.setWalker w).mem = s.mem := rfl
@[simp] theorem State.setWalker_inputs (s : State) (w : Walker) : (s.setWalker w).inputs = s.inputs := rfl
@[simp] theorem State.setWalker_reads (s : State) (w : Walker) : (s.setWalker w).reads = s.reads := rfl
@[simp] theorem State.setWalker_out (s : State) (w : Walker) : (s.setWalker w).out = s.out := rfl

@[simp] theorem State.setReads_walker (s : State) (h : List ReadEvent) : (s.setReads h).walker = s.walker := rfl
@[simp] theorem State.setReads_policy (s : State) (h : List ReadEvent) : (s.setReads h).policy = s.policy := rfl
@[simp] theorem State.setReads_mem (s : State) (h : List ReadEvent) : (s.setReads h).mem = s.mem := rfl
@[simp] theorem State.setReads_inputs (s : State) (h : List ReadEvent) : (s.setReads h).inputs = s.inputs := rfl
@[simp] theorem State.setReads_reads (s : State) (h : List ReadEvent) : (s.setReads h).reads = h := rfl
@[simp] theorem State.setReads_out (s : State) (h : List ReadEvent) : (s.setReads h).out = s.out := rfl

@[simp] theorem State.setMem_walker (s : State) (m : Memory) : (s.setMem m).walker = s.walker := rfl
@[simp] theorem State.setMem_policy (s : State) (m : Memory) : (s.setMem m).policy = s.policy := rfl
@[simp] theorem State.setMem_mem (s : State) (m : Memory) : (s.setMem m).mem = m := rfl
@[simp] theorem State.setMem_inputs (s : State) (m : Memory) : (s.setMem m).inputs = s.inputs := rfl
@[simp] theorem State.setMem_reads (s : State) (m : Memory) : (s.setMem m).reads = s.reads := rfl
@[simp] theorem State.setMem_out (s : State) (m : Memory) : (s.setMem m).out = s.out := rfl

@[simp] theorem State.setInputs_walker (s : State) (is : List HostInput) : (s.setInputs is).walker = s.walker := rfl
@[simp] theorem State.setInputs_policy (s : State) (is : List HostInput) : (s.setInputs is).policy = s.policy := rfl
@[simp] theorem State.setInputs_mem (s : State) (is : List HostInput) : (s.setInputs is).mem = s.mem := rfl
@[simp] theorem State.setInputs_inputs (s : State) (is : List HostInput) : (s.setInputs is).inputs = is := rfl
@[simp] theorem State.setInputs_reads (s : State) (is : List HostInput) : (s.setInputs is).reads = s.reads := rfl
@[simp] theorem State.setInputs_out (s : State) (is : List HostInput) : (s.setInputs is).out = s.out := rfl

@[simp] theorem State.setOut_walker (s : State) (r : FnResult) : (s.setOut r).walker = s.walker := rfl
@[simp] theorem State.setOut_policy (s : State) (r : FnResult) : (s.setOut r).policy = s.policy := rfl
@[simp] theorem State.setOut_mem (s : State) (r : FnResult) : (s.setOut r).mem = s.mem := rfl
@[simp] theorem State.setOut_inputs (s : State) (r : FnResult) : (s.setOut r).inputs = s.inputs := rfl
@[simp] theorem State.setOut_reads (s : State) (r : FnResult) : (s.setOut r).reads = s.reads := rfl
@[simp] theorem State.setOut_out (s : State) (r : FnResult) : (s.setOut r).out = some r := rfl

@[simp] theorem State.clearOut_walker (s : State) : (s.clearOut).walker = s.walker := rfl
@[simp] theorem State.clearOut_policy (s : State) : (s.clearOut).policy = s.policy := rfl
@[simp] theorem State.clearOut_mem (s : State) : (s.clearOut).mem = s.mem := rfl
@[simp] theorem State.clearOut_inputs (s : State) : (s.clearOut).inputs = s.inputs := rfl
@[simp] theorem State.clearOut_reads (s : State) : (s.clearOut).reads = s.reads := rfl
@[simp] theorem State.clearOut_out (s : State) : (s.clearOut).out = none := rfl

@[simp] theorem resolve_walker (pa : Word) (w : Walk) (s : State) : (resolve pa w s).walker = .resolved w.va w.tb pa w.steps := rfl
@[simp] theorem resolve_policy (pa : Word) (w : Walk) (s : State) : (resolve pa w s).policy = s.policy := rfl
@[simp] theorem resolve_mem (pa : Word) (w : Walk) (s : State) : (resolve pa w s).mem = s.mem := rfl
@[simp] theorem resolve_inputs (pa : Word) (w : Walk) (s : State) : (resolve pa w s).inputs = s.inputs := rfl
@[simp] theorem resolve_reads (pa : Word) (w : Walk) (s : State) : (resolve pa w s).reads = s.reads := rfl
@[simp] theorem resolve_out (pa : Word) (w : Walk) (s : State) : (resolve pa w s).out = s.out := rfl

@[simp] theorem failNotPresent_walker (l : Level) (raw : Word) (w : Walk) (s : State) : (failNotPresent l raw w s).walker = .failed w.va w.tb .notPresent (some l) (some raw) none w.steps := rfl
@[simp] theorem failNotPresent_policy (l : Level) (raw : Word) (w : Walk) (s : State) : (failNotPresent l raw w s).policy = s.policy := rfl
@[simp] theorem failNotPresent_mem (l : Level) (raw : Word) (w : Walk) (s : State) : (failNotPresent l raw w s).mem = s.mem := rfl
@[simp] theorem failNotPresent_inputs (l : Level) (raw : Word) (w : Walk) (s : State) : (failNotPresent l raw w s).inputs = s.inputs := rfl
@[simp] theorem failNotPresent_reads (l : Level) (raw : Word) (w : Walk) (s : State) : (failNotPresent l raw w s).reads = s.reads := rfl
@[simp] theorem failNotPresent_out (l : Level) (raw : Word) (w : Walk) (s : State) : (failNotPresent l raw w s).out = s.out := rfl

@[simp] theorem descend_walker (raw : Word) (below : Walk → Walker) (w : Walk) (s : State) : (descend raw below w s).walker = below { w with tbl := nextBase raw } := rfl
@[simp] theorem descend_policy (raw : Word) (below : Walk → Walker) (w : Walk) (s : State) : (descend raw below w s).policy = s.policy := rfl
@[simp] theorem descend_mem (raw : Word) (below : Walk → Walker) (w : Walk) (s : State) : (descend raw below w s).mem = s.mem := rfl
@[simp] theorem descend_inputs (raw : Word) (below : Walk → Walker) (w : Walk) (s : State) : (descend raw below w s).inputs = s.inputs := rfl
@[simp] theorem descend_reads (raw : Word) (below : Walk → Walker) (w : Walk) (s : State) : (descend raw below w s).reads = s.reads := rfl
@[simp] theorem descend_out (raw : Word) (below : Walk → Walker) (w : Walk) (s : State) : (descend raw below w s).out = s.out := rfl

@[simp] theorem failInvalidInput_walker (va tb : Word) (s : State) : (failInvalidInput va tb s).walker = .failed va tb .invalidInput none none none [] := rfl
@[simp] theorem failInvalidInput_policy (va tb : Word) (s : State) : (failInvalidInput va tb s).policy = s.policy := rfl
@[simp] theorem failInvalidInput_mem (va tb : Word) (s : State) : (failInvalidInput va tb s).mem = s.mem := rfl
@[simp] theorem failInvalidInput_inputs (va tb : Word) (s : State) : (failInvalidInput va tb s).inputs = s.inputs := rfl
@[simp] theorem failInvalidInput_reads (va tb : Word) (s : State) : (failInvalidInput va tb s).reads = s.reads := rfl
@[simp] theorem failInvalidInput_out (va tb : Word) (s : State) : (failInvalidInput va tb s).out = s.out := rfl

@[simp] theorem clearWalk_walker (s : State) : (clearWalk s).walker = .start none := rfl
@[simp] theorem clearWalk_policy (s : State) : (clearWalk s).policy = s.policy := rfl
@[simp] theorem clearWalk_mem (s : State) : (clearWalk s).mem = s.mem := rfl
@[simp] theorem clearWalk_inputs (s : State) : (clearWalk s).inputs = s.inputs := rfl
@[simp] theorem clearWalk_reads (s : State) : (clearWalk s).reads = [] := rfl
@[simp] theorem clearWalk_out (s : State) : (clearWalk s).out = s.out := rfl

@[simp] theorem resetBlock_walker (s : State) : (resetBlock s).walker = .start none := rfl
@[simp] theorem resetBlock_policy (s : State) : (resetBlock s).policy = s.policy := rfl
@[simp] theorem resetBlock_mem (s : State) : (resetBlock s).mem = s.mem := rfl
@[simp] theorem resetBlock_inputs (s : State) : (resetBlock s).inputs = s.inputs := rfl
@[simp] theorem resetBlock_reads (s : State) : (resetBlock s).reads = [] := rfl
@[simp] theorem resetBlock_out (s : State) : (resetBlock s).out = none := rfl

@[simp] theorem Request.walk_va (r : Request) : r.walk.va = r.va := rfl
@[simp] theorem Request.walk_tb (r : Request) : r.walk.tb = r.tb := rfl
@[simp] theorem Request.walk_reader (r : Request) : r.walk.reader = r.reader := rfl
@[simp] theorem Request.walk_tbl (r : Request) : r.walk.tbl = rootBase r.tb := rfl
@[simp] theorem Request.walk_steps (r : Request) : r.walk.steps = [] := rfl

end Sys2Proof.Machine
end

