-- ==== Sys2Proof/Machine/Image.lean ====
section
/-! DEFINITION. Page-table images as rule R98 writes them: one line per entry, assembled to its raw value and placed in
memory at the address of that entry. The notation is the spec's own, for its programs; no step uses it. -/

namespace Sys2Proof.Machine

open Sys2Proof

/-- A line of an image: the entry `index` of the table at `base`, with its address bits, its flags and any further
bits. -/
structure ImageLine where
  base : Word
  index : BitVec 9
  target : Word
  present : Bool
  writable : Bool
  user : Bool
  pageSize : Bool
  extra : Word
deriving DecidableEq, Repr

/-- The flags of a line at their places: bits 0, 1, 2, 7 (rules R98, R99). -/
def ImageLine.flagBits (l : ImageLine) : Word :=
  (if l.present then 0x01#64 else 0#64) ||| (if l.writable then 0x02#64 else 0#64) |||
    (if l.user then 0x04#64 else 0#64) ||| (if l.pageSize then 0x80#64 else 0#64)

/-- `raw = target | flagbits | extra` (rule R98). -/
def ImageLine.raw (l : ImageLine) : Word := l.target ||| l.flagBits ||| l.extra

/-- The memory an image describes; an address that no line gives is not readable (rule R98). DESIGN CHOICE (log entry 21): rule
R98 is silent on two lines that give the same address or overlapping ones; the lines are placed in their order, so the later
line overwrites the bytes of the earlier. -/
def imageOf (lines : List ImageLine) : Memory :=
  lines.foldl (fun m l => m.placeQword (entryAddr l.base l.index) l.raw) []

end Sys2Proof.Machine
end

