-- ==== Sys2Proof/Laws/Memory.lean ====
section
/-! SUPPORT. The finite map of bytes: every operation keeps the canonical form, a read after a write, and the eight
bytes of a 64-bit value. -/

namespace Sys2Proof.Machine

open Sys2Proof

/-- The canonical form as a recursion on the tail: the first address is below every later one. -/
theorem Memory.wf_cons (c : Host.Cell) (m : Memory) :
    Memory.wf (c :: m) = true ↔ c.1 < 2 ^ 64 ∧ (∀ d ∈ m, c.1 < d.1) ∧ Memory.wf m = true := by
  induction m generalizing c with
  | nil => simp [Memory.wf]
  | cons d rest ih =>
    simp only [Memory.wf, Bool.and_eq_true, decide_eq_true_eq, ih d]
    constructor
    · rintro ⟨hcd, hd, hrest, hwf⟩
      refine ⟨by omega, ?_, hd, hrest, hwf⟩
      intro e he
      rcases List.mem_cons.mp he with rfl | he
      · exact hcd
      · exact Nat.lt_trans hcd (hrest e he)
    · rintro ⟨_, hall, hd, hrest, hwf⟩
      exact ⟨hall d (by simp), hd, hrest, hwf⟩

/-- The addresses listed after a write. -/
theorem Memory.mem_write {m : Memory} {a : Nat} {b : Byte} {c : Host.Cell} (h : c ∈ m.write a b) :
    c.1 = a ∨ c ∈ m := by
  induction m with
  | nil => simp_all [Memory.write]
  | cons d rest ih =>
    simp only [Memory.write] at h
    split at h
    · rcases List.mem_cons.mp h with rfl | h <;> simp_all
    · split at h
      · rcases List.mem_cons.mp h with rfl | h <;> simp_all
      · rcases List.mem_cons.mp h with rfl | h
        · simp
        · rcases ih h with h | h <;> simp [h]

/-- Nothing is listed after an erasure that was not listed before it. -/
theorem Memory.mem_erase {m : Memory} {a : Nat} {c : Host.Cell} (h : c ∈ m.erase a) : c ∈ m := by
  induction m with
  | nil => simp [Memory.erase] at h
  | cons d rest ih =>
    simp only [Memory.erase] at h
    split at h
    · exact List.mem_cons_of_mem _ h
    · rcases List.mem_cons.mp h with rfl | h
      · simp
      · exact List.mem_cons_of_mem _ (ih h)

/-- A write keeps the canonical form. -/
theorem Memory.wf_write {m : Memory} {a : Nat} (b : Byte) (ha : a < 2 ^ 64) (hm : m.wf = true) :
    (m.write a b).wf = true := by
  induction m with
  | nil => simpa [Memory.write, Memory.wf] using ha
  | cons c rest ih =>
    obtain ⟨hc, hrest, hwf⟩ := (Memory.wf_cons c rest).mp hm
    simp only [Memory.write]
    split
    · next hlt =>
      refine (Memory.wf_cons _ _).mpr ⟨ha, ?_, hm⟩
      intro d hd
      rcases List.mem_cons.mp hd with rfl | hd
      · exact hlt
      · exact Nat.lt_trans hlt (hrest d hd)
    · split
      · next heq => exact (Memory.wf_cons _ _).mpr ⟨ha, fun d hd => heq ▸ hrest d hd, hwf⟩
      · refine (Memory.wf_cons _ _).mpr ⟨hc, ?_, ih hwf⟩
        intro d hd
        rcases Memory.mem_write hd with h | h
        · simp only at *; omega
        · exact hrest d h

/-- An erasure keeps the canonical form. -/
theorem Memory.wf_erase {m : Memory} (a : Nat) (hm : m.wf = true) : (m.erase a).wf = true := by
  induction m with
  | nil => rfl
  | cons c rest ih =>
    obtain ⟨hc, hrest, hwf⟩ := (Memory.wf_cons c rest).mp hm
    simp only [Memory.erase]
    split
    · exact hwf
    · exact (Memory.wf_cons _ _).mpr ⟨hc, fun d hd => hrest d (Memory.mem_erase hd), ih hwf⟩

/-- Consecutive writes keep the canonical form. -/
theorem Memory.wf_writeBytes {m : Memory} {a : Nat} {bytes : List Byte} (ha : a + bytes.length ≤ 2 ^ 64)
    (hm : m.wf = true) : (m.writeBytes a bytes).wf = true := by
  induction bytes generalizing m a with
  | nil => exact hm
  | cons b rest ih =>
    simp only [List.length_cons] at ha
    exact ih (by omega) (Memory.wf_write b (by omega) hm)

/-- Placing a 64-bit value keeps the canonical form. -/
theorem Memory.wf_placeQword {m : Memory} {addr : Word} (v : Word) (ha : addr.toNat + 8 ≤ 2 ^ 64) (hm : m.wf = true) :
    (m.placeQword addr v).wf = true := Memory.wf_writeBytes (by simpa [bytesOfQword] using ha) hm

/-- Memory after reset has the canonical form. -/
theorem State.reset_mem_wf : State.reset.mem.wf = true := rfl

/-- A byte that was written reads as written. -/
theorem Memory.read_write_same {m : Memory} (a : Nat) (b : Byte) (hm : m.wf = true) :
    (m.write a b).read a = some b := by
  induction m with
  | nil => simp [Memory.write, Memory.read]
  | cons c rest ih =>
    obtain ⟨_, _, hwf⟩ := (Memory.wf_cons c rest).mp hm
    simp only [Memory.write]
    split
    · simp [Memory.read]
    · split
      · simp [Memory.read]
      · next hne => simp [Memory.read, Ne.symm hne, ih hwf]

/-- A write leaves every other address as it was. -/
theorem Memory.read_write_other {m : Memory} {a a' : Nat} (b : Byte) (h : a' ≠ a) :
    (m.write a b).read a' = m.read a' := by
  induction m with
  | nil => simp [Memory.write, Memory.read, Ne.symm h]
  | cons c rest ih =>
    simp only [Memory.write]
    split
    · simp [Memory.read, Ne.symm h]
    · split
      · next heq => simp [Memory.read, Ne.symm h, ← heq]
      · simp [Memory.read, ih]

/-- An address below every listed one is not readable. -/
theorem Memory.read_eq_none {m : Memory} {a : Nat} (h : ∀ c ∈ m, a < c.1) : m.read a = none := by
  induction m with
  | nil => rfl
  | cons c rest ih =>
    have hc := h c (by simp)
    simp only [Memory.read]
    rw [if_neg (by omega)]
    exact ih fun d hd => h d (by simp [hd])

/-- A byte that was erased is not readable. -/
theorem Memory.read_erase_same {m : Memory} (a : Nat) (hm : m.wf = true) : (m.erase a).read a = none := by
  induction m with
  | nil => rfl
  | cons c rest ih =>
    obtain ⟨_, hrest, hwf⟩ := (Memory.wf_cons c rest).mp hm
    simp only [Memory.erase]
    split
    · next heq => exact Memory.read_eq_none fun d hd => heq ▸ hrest d hd
    · next hne => simp [Memory.read, hne, ih hwf]

/-- An erasure leaves every other address as it was. -/
theorem Memory.read_erase_other {m : Memory} {a a' : Nat} (h : a' ≠ a) : (m.erase a).read a' = m.read a' := by
  induction m with
  | nil => rfl
  | cons c rest ih =>
    simp only [Memory.erase]
    split
    · next heq => simp [Memory.read, heq, Ne.symm h]
    · simp [Memory.read, ih]

/-- What the reader answers to a read, and when: rule R51 with the readers of rule R67. -/
theorem memRead_cases (reader : Reader) (m : Memory) (addr : Word) :
    (memRead reader m addr = none ∧ reader = .script []) ∨
    (∃ a rest, reader = .script (a :: rest) ∧ memRead reader m addr = some (a, .script rest)) ∨
    (∃ missing v, reader = .memory missing ∧ m.readQword addr = some v ∧
      memRead reader m addr = some (.ok v, reader)) ∨
    (∃ missing, reader = .memory missing ∧ m.readQword addr = none ∧
      memRead reader m addr = some (.err missing, reader)) := by
  rcases reader with missing | answers
  · cases h : m.readQword addr with
    | some v => exact .inr (.inr (.inl ⟨missing, v, rfl, rfl, by simp [memRead, h]⟩))
    | none => exact .inr (.inr (.inr ⟨missing, rfl, rfl, by simp [memRead, h]⟩))
  · cases answers with
    | nil => exact .inl ⟨rfl, rfl⟩
    | cons a rest => exact .inr (.inl ⟨a, rest, rfl, rfl⟩)

/-- Placing the lines of an image keeps the canonical form (rule R98). -/
theorem Memory.wf_placeLines {lines : List ImageLine} {m : Memory}
    (hl : ∀ l ∈ lines, (entryAddr l.base l.index).toNat + 8 ≤ 2 ^ 64) (hm : m.wf = true) :
    (lines.foldl (fun m l => m.placeQword (entryAddr l.base l.index) l.raw) m).wf = true := by
  induction lines generalizing m with
  | nil => exact hm
  | cons l rest ih =>
    exact ih (fun x hx => hl x (List.mem_cons_of_mem _ hx)) (Memory.wf_placeQword _ (hl l List.mem_cons_self) hm)

/-- The memory of an image is canonical. -/
theorem imageOf_wf {lines : List ImageLine} (hl : ∀ l ∈ lines, (entryAddr l.base l.index).toNat + 8 ≤ 2 ^ 64) :
    (imageOf lines).wf = true := Memory.wf_placeLines hl rfl

end Sys2Proof.Machine
end

