-- ==== Sys2Proof/Laws/Walk.lean ====
section
/-! SUPPORT. What each shared operation of the walk can come to: the fetch, the read of the root, the acceptance of a
request, the entry executed next, and an entry executed at its level. -/

namespace Sys2Proof.Machine

open Sys2Proof

/-- `FETCH` says all it can come to: no answer, an error, or an entry (rules R51, R207). -/
theorem fetch_cases (level : Level) (w : Walk) (s : State) :
    (memRead w.reader s.mem (entryAddr w.tbl (indexAt level w.va)) = none ∧ fetch level w s = .unanswered) ∨
    (∃ e reader, memRead w.reader s.mem (entryAddr w.tbl (indexAt level w.va)) = some (.err e, reader) ∧
      fetch level w s = .failed (raiseFailed w.va w.tb .readFailure (some level) none (some e) w.steps
        (s.setReads (s.reads ++ [⟨entryAddr w.tbl (indexAt level w.va), .err e⟩])))) ∨
    (∃ v reader, memRead w.reader s.mem (entryAddr w.tbl (indexAt level w.va)) = some (.ok v, reader) ∧
      fetch level w s = .fetched v
        { w with reader := reader, steps := w.steps ++ [walkStepOf level w.tbl (indexAt level w.va) v] }
        (s.setReads (s.reads ++ [⟨entryAddr w.tbl (indexAt level w.va), .ok v⟩]))) := by
  rcases h : memRead w.reader s.mem (entryAddr w.tbl (indexAt level w.va)) with _ | ⟨a, reader⟩
  · exact .inl ⟨rfl, by simp [fetch, h]⟩
  · rcases a with v | e
    · exact .inr (.inr ⟨v, reader, rfl, by simp [fetch, h]⟩)
    · exact .inr (.inl ⟨e, reader, rfl, by simp [fetch, h]⟩)

/-- `FETCH` depends on the state only through memory and the history it extends. -/
theorem fetch_setWalker (level : Level) (w : Walk) (s : State) (x : Walker) :
    fetch level w (s.setWalker x) =
      match fetch level w s with
      | .unanswered => .unanswered
      | .failed t => .failed t
      | .fetched raw w' t => .fetched raw w' (t.setWalker x) := by
  rcases fetch_cases level w s with ⟨hm, h⟩ | ⟨e, rd, hm, h⟩ | ⟨v, rd, hm, h⟩ <;> rw [h] <;>
    simp [fetch, hm] <;> rfl

/-- An entry is executed in a walk at its level. -/
theorem atLevel_of_walkAt {level : Level} {s : State} {w : Walk} (effect : Walk → State)
    (h : walkAt level s.walker = some w) : atLevel level s effect = .next (effect w) := by
  simp [atLevel, h]

/-- An entry is not executed where the walker is not at its level. -/
theorem atLevel_out_of_place {level : Level} {s : State} (effect : Walk → State)
    (h : walkAt level s.walker = none) : atLevel level s effect = .refused .entryOutOfPlace := by
  simp [atLevel, h]

/-- A request taken either waits for its first answer, has failed, or stands at PML4 (rules R202, R303). -/
theorem fetchRoot_cases (r : Request) (s : State) :
    (fetch .pml4 r.walk s = .unanswered ∧ fetchRoot r s = s.setWalker (.start (some r))) ∨
    (∃ t, fetch .pml4 r.walk s = .failed t ∧ fetchRoot r s = t) ∨
    (∃ raw w t, fetch .pml4 r.walk s = .fetched raw w t ∧ fetchRoot r s = t.setWalker (.atPml4 w raw)) := by
  rcases h : fetch .pml4 r.walk s with _ | t | ⟨raw, w, t⟩
  · exact .inl ⟨rfl, by simp [fetchRoot, h]⟩
  · exact .inr (.inl ⟨t, rfl, by simp [fetchRoot, h]⟩)
  · exact .inr (.inr ⟨raw, w, t, rfl, by simp [fetchRoot, h]⟩)

/-- What `FETCH` keeps in the state an error leaves. -/
theorem fetch_failed_frame {level : Level} {w : Walk} {s t : State} (h : fetch level w s = .failed t) :
    t.mem = s.mem ∧ t.policy = s.policy ∧ t.inputs = s.inputs ∧ t.out = s.out := by
  rcases fetch_cases level w s with ⟨_, h'⟩ | ⟨e, rd, _, h'⟩ | ⟨v, rd, _, h'⟩ <;> rw [h'] at h <;> cases h
  exact ⟨rfl, rfl, rfl, rfl⟩

/-- What `FETCH` keeps in the state an entry leaves; the walk keeps its operands and its table. -/
theorem fetch_fetched_frame {level : Level} {w w' : Walk} {s t : State} {raw : Word}
    (h : fetch level w s = .fetched raw w' t) :
    t.mem = s.mem ∧ t.policy = s.policy ∧ t.inputs = s.inputs ∧ t.out = s.out ∧ t.walker = s.walker ∧
      w'.va = w.va ∧ w'.tb = w.tb ∧ w'.tbl = w.tbl := by
  rcases fetch_cases level w s with ⟨_, h'⟩ | ⟨e, rd, _, h'⟩ | ⟨v, rd, _, h'⟩ <;> rw [h'] at h <;> cases h
  exact ⟨rfl, rfl, rfl, rfl, rfl, rfl, rfl, rfl⟩

/-- A fetch within one step either leaves the state, fails, or gives the entry to execute (rules R204 to R206). -/
theorem fetchAt_cases (level : Level) (here : Walk → Walker) (w : Walk) (s : State) :
    (fetch level w s = .unanswered ∧ fetchAt level here w s = .settled s) ∨
    (∃ t, fetch level w s = .failed t ∧ fetchAt level here w s = .settled t) ∨
    (∃ raw w' t, fetch level w s = .fetched raw w' t ∧
      fetchAt level here w s = .entry level raw (t.setWalker (here w'))) := by
  rcases h : fetch level w s with _ | t | ⟨raw, w', t⟩
  · exact .inl ⟨rfl, by simp [fetchAt, h]⟩
  · exact .inr (.inl ⟨t, rfl, by simp [fetchAt, h]⟩)
  · exact .inr (.inr ⟨raw, w', t, rfl, by simp [fetchAt, h]⟩)

/-- The classification in terms of the two bits it tests (rule R148). -/
theorem classify_eq (level : Level) (raw : Word) :
    classify level raw =
      match level, present raw, pageSize raw with
      | .pml4, false, _ => .pml4eNp
      | .pml4, true, _ => .pml4eTable
      | .pdpt, false, _ => .pdpteNp
      | .pdpt, true, true => .pdptePage1g
      | .pdpt, true, false => .pdpteTable
      | .pd, false, _ => .pdeNp
      | .pd, true, true => .pdePage2m
      | .pd, true, false => .pdeTable
      | .pt, false, _ => .pteNp
      | .pt, true, _ => .ptePage4k := by
  cases hp : present raw <;> cases hs : pageSize raw <;> cases level <;> simp [classify, decodeEntry, hp, hs]

/-- The decoder in terms of the two bits it tests (rule R100). -/
theorem decode_eq (level : Level) (raw : Word) :
    decode level raw =
      match level, present raw, pageSize raw with
      | .pml4, false, _ => .pml4eNp raw
      | .pml4, true, _ => .pml4eTable raw
      | .pdpt, false, _ => .pdpteNp raw
      | .pdpt, true, true => .pdptePage1g raw
      | .pdpt, true, false => .pdpteTable raw
      | .pd, false, _ => .pdeNp raw
      | .pd, true, true => .pdePage2m raw
      | .pd, true, false => .pdeTable raw
      | .pt, false, _ => .pteNp raw
      | .pt, true, _ => .ptePage4k raw := by
  cases hp : present raw <;> cases hs : pageSize raw <;> cases level <;>
    simp [decode, and_one_eq_zero_iff, and_huge_eq_iff, hp, hs]

/-- The level whose table a table pointer of a level leads to (rule R233); PT holds no table pointer. -/
def levelBelow : Level → Level
  | .pml4 => .pdpt
  | .pdpt => .pd
  | .pd => .pt
  | .pt => .pt

/-- What an entry executed at its level comes to: `Failed(NotPresent)`, `Resolved` at the address of a leaf, or the level
below with its table (rules R203 to R206, R210 to R219). -/
theorem exec_decode_at {level : Level} {s : State} {w : Walk} (raw : Word) (h : walkAt level s.walker = some w) :
    exec (decode level raw) s =
      if present raw = false then .next (failNotPresent level raw w s)
      else match leafAddr level raw w.va with
        | some pa => .next (resolve pa w s)
        | none => .next (s.setWalker (waitingAt (levelBelow level) { w with tbl := nextBase raw })) := by
  cases hp : present raw <;> cases hs : pageSize raw <;> cases level <;>
    simp [decode_eq, hp, hs, exec, execPml4eNp, execPml4eTable, execPdpteNp, execPdptePage1g, execPdpteTable, execPdeNp,
      execPdePage2m, execPdeTable, execPteNp, execPtePage4k, atLevel, h, leafAddr, classify_eq, descend, waitingAt,
      levelBelow]

/-- A present PT entry is always a leaf (rule R84). -/
theorem leafAddr_pt {raw va : Word} (h : present raw = true) : leafAddr .pt raw va = some (compose4k raw va) := by
  simp [leafAddr, classify_eq, h]

/-- An entry that leads down is no leaf. -/
theorem leafAddr_of_leadsDown {level : Level} {raw va : Word} (h : LeadsDown level raw) (hl : level ≠ .pt) :
    leafAddr level raw va = none := by
  cases level <;> simp_all [LeadsDown, leafAddr, classify_eq]

/-- An entry that is present and no leaf leads down. -/
theorem leadsDown_of_leafAddr {level : Level} {raw va : Word} (hp : present raw = true)
    (h : leafAddr level raw va = none) : LeadsDown level raw := by
  cases hs : pageSize raw <;> cases level <;> simp_all [LeadsDown, leafAddr, classify_eq]

/-- The entry the walker executes next is executed at its level, in some walk (rule R95). -/
theorem walkAt_of_nextEntry {s t : State} {level : Level} {raw : Word} (h : nextEntry s = .entry level raw t) :
    ∃ w, walkAt level t.walker = some w := by
  unfold nextEntry at h
  split at h
  · cases h
  · cases h
  · next hw => cases h; exact ⟨_, by rw [hw]; rfl⟩
  · rcases fetchAt_cases .pdpt .atPdpt ‹_› s with ⟨_, h'⟩ | ⟨_, _, h'⟩ | ⟨_, _, _, _, h'⟩ <;> rw [h'] at h <;> cases h
    exact ⟨_, rfl⟩
  · rcases fetchAt_cases .pd .atPd ‹_› s with ⟨_, h'⟩ | ⟨_, _, h'⟩ | ⟨_, _, _, _, h'⟩ <;> rw [h'] at h <;> cases h
    exact ⟨_, rfl⟩
  · rcases fetchAt_cases .pt .atPt ‹_› s with ⟨_, h'⟩ | ⟨_, _, h'⟩ | ⟨_, _, _, _, h'⟩ <;> rw [h'] at h <;> cases h
    exact ⟨_, rfl⟩
  · cases h
  · cases h

/-- One turn of the loop of rule R231, in the terms of the entry kinds. -/
theorem translateLevels_cons (level : Level) (below : List Level) (w : Walk) (s : State) :
    translateLevels (level :: below) w s =
      match fetch level w s with
      | .unanswered => s.setWalker (waitingAt level w)
      | .failed t => t
      | .fetched raw w' t =>
        if present raw = false then failNotPresent level raw w' t
        else match leafAddr level raw w'.va with
          | some pa => resolve pa w' t
          | none => translateLevels below { w' with tbl := nextBase raw } t := by
  rw [translateLevels]
  rcases fetch level w s with _ | t | ⟨raw, w', t⟩ <;> simp only
  cases hp : present raw <;> cases hs : pageSize raw <;> cases level <;> simp [leafAddr, classify_eq, hp, hs]

/-- A step in which the host makes no move is the walker's own, with that move consumed. -/
theorem step_of_hostIdle {s : State} {rest : List HostInput} (h : HostIdle s rest) :
    step s = walkStep (s.setInputs rest) := by
  rcases h with ⟨h, rfl⟩ | h
  · rw [step, h]
    simp only
    rw [show s.setInputs [] = s by cases s; cases h; rfl]
  · rw [step, h]

end Sys2Proof.Machine
end

