-- ==== Sys2Proof/Laws/Frames.lean ====
section
/-! SUPPORT. What the shared operations of the walk leave unchanged, and how a reader is used up. -/

namespace Sys2Proof.Machine

open Sys2Proof

/-- A read keeps the finite-map reader and takes one answer from a script (rule R67). -/
theorem memRead_reader {reader reader' : Reader} {m : Memory} {addr : Word} {a : ReadAnswer}
    (h : memRead reader m addr = some (a, reader')) :
    (∃ missing, reader = .memory missing ∧ reader' = .memory missing) ∨
      ∃ rest, reader = .script (a :: rest) ∧ reader' = .script rest := by
  rcases memRead_cases reader m addr with ⟨h', _⟩ | ⟨b, rest, rfl, h'⟩ | ⟨k, v, rfl, _, h'⟩ | ⟨k, rfl, _, h'⟩ <;>
    rw [h'] at h <;> cases h
  · exact .inr ⟨rest, rfl, rfl⟩
  · exact .inl ⟨k, rfl, rfl⟩
  · exact .inl ⟨k, rfl, rfl⟩

/-- Taking a request writes only the walker and the history. -/
theorem fetchRoot_frame (r : Request) (s : State) :
    (fetchRoot r s).mem = s.mem ∧ (fetchRoot r s).policy = s.policy ∧ (fetchRoot r s).inputs = s.inputs ∧
      (fetchRoot r s).out = s.out := by
  rcases fetchRoot_cases r s with ⟨_, h⟩ | ⟨t, hf, h⟩ | ⟨_, _, _, hf, h⟩ <;> rw [h]
  · exact ⟨rfl, rfl, rfl, rfl⟩
  · exact fetch_failed_frame hf
  · obtain ⟨h1, h2, h3, h4, _⟩ := fetch_fetched_frame hf
    exact ⟨h1, h2, h3, h4⟩

/-- A presented request writes only the walker and the history. -/
theorem presentRequest_frame (r : Request) (s : State) :
    (presentRequest r s).mem = s.mem ∧ (presentRequest r s).policy = s.policy ∧
      (presentRequest r s).inputs = s.inputs ∧ (presentRequest r s).out = s.out := by
  unfold presentRequest
  split
  · unfold acceptRequest
    split
    · exact ⟨rfl, rfl, rfl, rfl⟩
    · exact fetchRoot_frame r (s.setReads [])
  · exact ⟨rfl, rfl, rfl, rfl⟩

/-- `Retire` writes only the walker and the history. -/
theorem retire_frame (s : State) :
    (retire s).mem = s.mem ∧ (retire s).policy = s.policy ∧ (retire s).inputs = s.inputs ∧ (retire s).out = s.out := by
  unfold retire
  split <;> exact ⟨rfl, rfl, rfl, rfl⟩

/-- The fetch of a step writes only the walker and the history. -/
theorem fetchAt_frame {level : Level} {here : Walk → Walker} {w : Walk} {s t : State}
    (h : fetchAt level here w s = .settled t ∨ ∃ raw, fetchAt level here w s = .entry level raw t) :
    t.mem = s.mem ∧ t.policy = s.policy ∧ t.inputs = s.inputs ∧ t.out = s.out := by
  rcases fetchAt_cases level here w s with ⟨_, h'⟩ | ⟨u, hf, h'⟩ | ⟨raw, w', u, hf, h'⟩ <;> rw [h'] at h
  · rcases h with h | ⟨_, h⟩ <;> cases h
    exact ⟨rfl, rfl, rfl, rfl⟩
  · rcases h with h | ⟨_, h⟩ <;> cases h
    exact fetch_failed_frame hf
  · rcases h with h | ⟨_, h⟩ <;> cases h
    obtain ⟨h1, h2, h3, h4, _⟩ := fetch_fetched_frame hf
    exact ⟨h1, h2, h3, h4⟩

/-- A fetch that gives an entry appends its step and its read (rules R207, R60). -/
theorem fetch_fetched_trace {level : Level} {w w' : Walk} {s t : State} {raw : Word}
    (h : fetch level w s = .fetched raw w' t) :
    w'.steps = w.steps ++ [walkStepOf level w.tbl (indexAt level w.va) raw] ∧
      t.reads = s.reads ++ [⟨entryAddr w.tbl (indexAt level w.va), .ok raw⟩] := by
  rcases fetch_cases level w s with ⟨_, h'⟩ | ⟨_, _, _, h'⟩ | ⟨_, _, _, h'⟩ <;> rw [h'] at h <;> cases h
  exact ⟨rfl, rfl⟩

/-- A fetch that an error ends has its read in the history (rules R207, R252). -/
theorem fetch_failed_reads {level : Level} {w : Walk} {s t : State} (h : fetch level w s = .failed t) :
    ∃ e, t.reads = s.reads ++ [⟨entryAddr w.tbl (indexAt level w.va), .err e⟩] := by
  rcases fetch_cases level w s with ⟨_, h'⟩ | ⟨e, _, _, h'⟩ | ⟨_, _, _, h'⟩ <;> rw [h'] at h <;> cases h
  exact ⟨e, rfl⟩

/-- An entry executed at its level makes no read (rules R210 to R219). -/
theorem exec_decode_reads {level : Level} {s t : State} {w : Walk} {raw : Word} (h : walkAt level s.walker = some w)
    (he : exec (decode level raw) s = .next t) : t.reads = s.reads := by
  rw [exec_decode_at raw h] at he
  split at he
  · cases he; rfl
  · split at he <;> cases he <;> rfl

/-- A request accepted makes at most the one read of its PML4 entry, the first of its history (rule R202). -/
theorem acceptRequest_reads (r : Request) (s : State) :
    (acceptRequest r s).reads = [] ∨
      ∃ answer, (acceptRequest r s).reads = [⟨entryAddr (rootBase r.tb) (pml4Index r.va), answer⟩] := by
  unfold acceptRequest
  split
  · exact .inl rfl
  · rcases fetchRoot_cases r (s.setReads []) with ⟨_, h'⟩ | ⟨t, h, h'⟩ | ⟨raw, w, t, h, h'⟩ <;> rw [h']
    · exact .inl rfl
    · obtain ⟨e, he⟩ := fetch_failed_reads h
      exact .inr ⟨.err e, he⟩
    · exact .inr ⟨.ok raw, (fetch_fetched_trace h).2⟩

/-- A request is accepted in `Start` with no request taken. -/
theorem presentRequest_of_start {r : Request} {s : State} (h : s.walker = .start none) :
    presentRequest r s = acceptRequest r s := by
  simp [presentRequest, h]

/-- The loop of rule R231 writes only the walker and the history. -/
theorem translateLevels_frame (levels : List Level) (w : Walk) (s : State) :
    (translateLevels levels w s).mem = s.mem ∧ (translateLevels levels w s).policy = s.policy ∧
      (translateLevels levels w s).inputs = s.inputs ∧ (translateLevels levels w s).out = s.out := by
  induction levels generalizing w s with
  | nil => exact ⟨rfl, rfl, rfl, rfl⟩
  | cons level below ih =>
    rw [translateLevels_cons]
    rcases hf : fetch level w s with _ | t | ⟨raw, w', t⟩ <;> simp only
    · exact ⟨rfl, rfl, rfl, rfl⟩
    · exact fetch_failed_frame hf
    · obtain ⟨h1, h2, h3, h4, _⟩ := fetch_fetched_frame hf
      split
      · exact ⟨h1, h2, h3, h4⟩
      · split
        · exact ⟨h1, h2, h3, h4⟩
        · obtain ⟨i1, i2, i3, i4⟩ := ih { w' with tbl := nextBase raw } t
          exact ⟨i1.trans h1, i2.trans h2, i3.trans h3, i4.trans h4⟩

end Sys2Proof.Machine
end

