-- ==== Sys2Proof/Laws/PerInstr.lean ====
section
/-! SUPPORT. A statement about every operation as syntax, one lemma per constructor: an operation that has an encoding
is an entry whose present bit, and whose page size where rule R100 tests it, are those of its kind. -/

namespace Sys2Proof.Laws.EntryBits

open Sys2Proof Sys2Proof.Machine

/-- The present bit of the entries of a kind, and the page size where the kind tests it (rule R100). -/
def bitsOf : Instr → Bool × Option Bool
  | .pml4eNp _ | .pdpteNp _ | .pdeNp _ | .pteNp _ => (false, none)
  | .pml4eTable _ | .ptePage4k _ => (true, none)
  | .pdpteTable _ | .pdeTable _ => (true, some false)
  | _ => (true, some true)

/-- A well-formed operation with an encoding has the bits of its kind. -/
def Statement (i : Instr) : Prop :=
  ∀ level raw, i.wellFormed = true → encode i = some (level, raw) →
    present raw = (bitsOf i).1 ∧ ∀ b, (bitsOf i).2 = some b → pageSize raw = b

theorem pml4eNp (raw : Word) : Statement (.pml4eNp raw) := by
  intro level v hw he
  cases he
  have := (and_one_eq_zero_iff raw).mp (by simpa [Instr.wellFormed, EntryKind.admits, EntryKind.mask, EntryKind.matchBits] using hw)
  simpa [bitsOf] using this

theorem pml4eTable (raw : Word) : Statement (.pml4eTable raw) := by
  intro level v hw he
  cases he
  have := (and_one_eq_one_iff raw).mp (by simpa [Instr.wellFormed, EntryKind.admits, EntryKind.mask, EntryKind.matchBits] using hw)
  simpa [bitsOf] using this

theorem pdpteNp (raw : Word) : Statement (.pdpteNp raw) := by
  intro level v hw he
  cases he
  have := (and_one_eq_zero_iff raw).mp (by simpa [Instr.wellFormed, EntryKind.admits, EntryKind.mask, EntryKind.matchBits] using hw)
  simpa [bitsOf] using this

theorem pdptePage1g (raw : Word) : Statement (.pdptePage1g raw) := by
  intro level v hw he
  cases he
  have := (and_huge_eq_iff raw).mp (by simpa [Instr.wellFormed, EntryKind.admits, EntryKind.mask, EntryKind.matchBits] using hw)
  simpa [bitsOf] using this

theorem pdpteTable (raw : Word) : Statement (.pdpteTable raw) := by
  intro level v hw he
  cases he
  have := (and_huge_eq_one_iff raw).mp (by simpa [Instr.wellFormed, EntryKind.admits, EntryKind.mask, EntryKind.matchBits] using hw)
  simpa [bitsOf] using this

theorem pdeNp (raw : Word) : Statement (.pdeNp raw) := by
  intro level v hw he
  cases he
  have := (and_one_eq_zero_iff raw).mp (by simpa [Instr.wellFormed, EntryKind.admits, EntryKind.mask, EntryKind.matchBits] using hw)
  simpa [bitsOf] using this

theorem pdePage2m (raw : Word) : Statement (.pdePage2m raw) := by
  intro level v hw he
  cases he
  have := (and_huge_eq_iff raw).mp (by simpa [Instr.wellFormed, EntryKind.admits, EntryKind.mask, EntryKind.matchBits] using hw)
  simpa [bitsOf] using this

theorem pdeTable (raw : Word) : Statement (.pdeTable raw) := by
  intro level v hw he
  cases he
  have := (and_huge_eq_one_iff raw).mp (by simpa [Instr.wellFormed, EntryKind.admits, EntryKind.mask, EntryKind.matchBits] using hw)
  simpa [bitsOf] using this

theorem pteNp (raw : Word) : Statement (.pteNp raw) := by
  intro level v hw he
  cases he
  have := (and_one_eq_zero_iff raw).mp (by simpa [Instr.wellFormed, EntryKind.admits, EntryKind.mask, EntryKind.matchBits] using hw)
  simpa [bitsOf] using this

theorem ptePage4k (raw : Word) : Statement (.ptePage4k raw) := by
  intro level v hw he
  cases he
  have := (and_one_eq_one_iff raw).mp (by simpa [Instr.wellFormed, EntryKind.admits, EntryKind.mask, EntryKind.matchBits] using hw)
  simpa [bitsOf] using this

theorem translate (va tb : Word) (reader : Reader) : Statement (.translate va tb reader) := by
  intro level v _ he; cases he

theorem pml4Index (raw : Word) : Statement (.pml4Index raw) := by
  intro level v _ he; cases he

theorem pdptIndex (raw : Word) : Statement (.pdptIndex raw) := by
  intro level v _ he; cases he

theorem pdIndex (raw : Word) : Statement (.pdIndex raw) := by
  intro level v _ he; cases he

theorem ptIndex (raw : Word) : Statement (.ptIndex raw) := by
  intro level v _ he; cases he

theorem pageOffset (raw : Word) : Statement (.pageOffset raw) := by
  intro level v _ he; cases he

theorem decompose (raw : Word) : Statement (.decompose raw) := by
  intro level v _ he; cases he

theorem isCanonical (raw : Word) : Statement (.isCanonical raw) := by
  intro level v _ he; cases he

theorem present (raw : Word) : Statement (.present raw) := by
  intro level v _ he; cases he

theorem writable (raw : Word) : Statement (.writable raw) := by
  intro level v _ he; cases he

theorem user (raw : Word) : Statement (.user raw) := by
  intro level v _ he; cases he

theorem pageSize (raw : Word) : Statement (.pageSize raw) := by
  intro level v _ he; cases he

theorem physicalBase (raw : Word) : Statement (.physicalBase raw) := by
  intro level v _ he; cases he

theorem decodeEntry (raw : Word) : Statement (.decodeEntry raw) := by
  intro level v _ he; cases he

theorem classify (level : Level) (raw : Word) : Statement (.classify level raw) := by
  intro level v _ he; cases he

theorem rootBase (raw : Word) : Statement (.rootBase raw) := by
  intro level v _ he; cases he

theorem nextBase (raw : Word) : Statement (.nextBase raw) := by
  intro level v _ he; cases he

theorem entryAddr (base : Word) (index : BitVec 9) : Statement (.entryAddr base index) := by
  intro level v _ he; cases he

theorem base2m (raw : Word) : Statement (.base2m raw) := by
  intro level v _ he; cases he

theorem base1g (raw : Word) : Statement (.base1g raw) := by
  intro level v _ he; cases he

theorem offset2m (raw : Word) : Statement (.offset2m raw) := by
  intro level v _ he; cases he

theorem offset1g (raw : Word) : Statement (.offset1g raw) := by
  intro level v _ he; cases he

theorem compose4k (raw va : Word) : Statement (.compose4k raw va) := by
  intro level v _ he; cases he

theorem compose2m (raw va : Word) : Statement (.compose2m raw va) := by
  intro level v _ he; cases he

theorem compose1g (raw va : Word) : Statement (.compose1g raw va) := by
  intro level v _ he; cases he

end Sys2Proof.Laws.EntryBits
end

