-- ==== Sys2Proof/Laws/Trace.lean ====
section
/-! SUPPORT. The trace of a walk as it grows: one more level, its length, and the reads that gave it. -/

namespace Sys2Proof.Machine

open Sys2Proof

/-- A trace that descends and an entry that leads down make a trace that descends one level more. -/
theorem Descends.snoc {va tbl last raw : Word} {levels : List Level} {steps : List WalkStep} {level : Level}
    (h : Descends va levels tbl steps last) (hl : LeadsDown level raw) :
    Descends va (levels ++ [level]) tbl (steps ++ [walkStepOf level last (indexAt level va) raw]) (nextBase raw) := by
  induction levels generalizing tbl steps with
  | nil =>
    obtain ⟨rfl, rfl⟩ := h
    exact ⟨raw, [], rfl, hl, rfl, rfl⟩
  | cons l ls ih =>
    obtain ⟨v, rest, rfl, hv, hd⟩ := h
    exact ⟨v, _, rfl, hv, ih hd⟩

/-- A trace has one step per level. -/
theorem Descends.length {va tbl last : Word} {levels : List Level} {steps : List WalkStep}
    (h : Descends va levels tbl steps last) : steps.length = levels.length := by
  induction levels generalizing tbl steps with
  | nil =>
    obtain ⟨rfl, rfl⟩ := h
    rfl
  | cons l ls ih =>
    obtain ⟨v, rest, rfl, _, hd⟩ := h
    simp [ih hd]

/-- The levels visited before a level, counted. -/
theorem levelsBefore_length (level : Level) : (levelsBefore level).length = levelCode level := by cases level <;> rfl

/-- The reads of a longer trace. -/
theorem readsOf_append (a b : List WalkStep) : readsOf (a ++ b) = readsOf a ++ readsOf b := by simp [readsOf]

/-- `k` steps beginning with one that answers. -/
theorem runSteps_succ {k : Nat} {s t : State} (h : step s = .next t) : runSteps (k + 1) s = runSteps k t := by
  rw [runSteps, h]

/-- A state that a step leaves as it is stays so. -/
theorem runSteps_of_fixed {s : State} (k : Nat) (h : step s = .next s) : runSteps k s = .next s := by
  induction k with
  | zero => rfl
  | succ k ih => rw [runSteps_succ h, ih]

end Sys2Proof.Machine
end

