-- ==== Sys2Proof/Tests/Slice0.lean ====
section
/-! SUPPORT. Tests. Expected values come from spec/95_test_vectors.md (V, E, K, B, A, C, W, P) or from the worked example of
the rule named; none is the model's own answer. After the tests stand the witnesses: for each statement with hypotheses, a
state and operands that meet them. -/

open Sys2Proof Sys2Proof.Machine

namespace Sys2Proof.Tests

/-! ### Helpers -/

/-- The general virtual address of vector V5 and program P1. -/
def va1 : Word := 0x0000123456789ABC#64

/-- Memory holding entries at addresses. -/
def image (entries : List (Word × Word)) : Memory :=
  entries.foldl (fun m e => m.placeQword e.1 e.2) []

/-- The image of program P1. -/
def imageP1 : Memory := image [(0x1120#64, 0x2007#64), (0x2688#64, 0x3007#64), (0x3598#64, 0x4007#64),
  (0x4C48#64, 0x8000000012345067#64)]

/-- The state after reset with an image in memory. -/
def ready (m : Memory) : State := { State.reset with mem := m }

/-- The state an outcome gives. -/
def stateOf : Host.Outcome State Fault Refusal → Option State
  | .next t => some t
  | _ => none

/-- `TRANSLATE` with the finite-map reader over an image. -/
def translated (m : Memory) (va tb : Word) : Option State := stateOf (exec (.translate va tb (.memory ⟨0⟩)) (ready m))

/-- The physical address of a resolved state. -/
def physicalAddress (s : State) : Option Word :=
  match s.walker with
  | .resolved _ _ pa _ => some pa
  | _ => none

/-- The kind, the level and the raw entry of a failed state. -/
def failure (s : State) : Option (FailKind × Option Level × Option Word) :=
  match s.walker with
  | .failed _ _ kind level raw _ _ => some (kind, level, raw)
  | _ => none

/-- The trace of a terminal state. -/
def trace (s : State) : List WalkStep :=
  match s.walker with
  | .resolved _ _ _ steps => steps
  | .failed _ _ _ _ _ _ steps => steps
  | _ => []

/-- A walk of program P1 before the read of a level, with the table it has reached and an empty trace. -/
def walkP1 (tbl : Word) : Walk := { va := va1, tb := 0x1000#64, reader := .memory ⟨0⟩, tbl := tbl, steps := [] }

/-- The state after reset with a given walker. -/
def at_ (w : Walker) : State := { State.reset with walker := w }

/-- What a function drives. -/
def driven (i : Instr) : Option FnResult := (stateOf (exec i State.reset)).bind fun t => t.out

/-! ### Ill-formed terms are refused -/

theorem test_wf_pml4eNp : (Instr.pml4eNp 0x1#64).wellFormed = false := by decide
theorem test_wf_pml4eTable : (Instr.pml4eTable 0xFFFFFFFFFFFFFFFE#64).wellFormed = false := by decide
theorem test_wf_pdpteNp : (Instr.pdpteNp 0x81#64).wellFormed = false := by decide
theorem test_wf_pdptePage1g : (Instr.pdptePage1g 0x80#64).wellFormed = false := by decide
theorem test_wf_pdpteTable : (Instr.pdpteTable 0x81#64).wellFormed = false := by decide
theorem test_wf_pdeNp : (Instr.pdeNp 0x1#64).wellFormed = false := by decide
theorem test_wf_pdePage2m : (Instr.pdePage2m 0x1#64).wellFormed = false := by decide
theorem test_wf_pdeTable : (Instr.pdeTable 0x80#64).wellFormed = false := by decide
theorem test_wf_pteNp : (Instr.pteNp 0x81#64).wellFormed = false := by decide
theorem test_wf_ptePage4k : (Instr.ptePage4k 0x80#64).wellFormed = false := by decide
/-- A not-present entry has no next table (rule R172). -/
theorem test_wf_nextBase : (Instr.nextBase 0x2006#64).wellFormed = false := by decide
/-- Not a table base: low bits set (rules R171, R173). -/
theorem test_wf_entryAddr : (Instr.entryAddr 0x1008#64 0#9).wellFormed = false := by decide
theorem test_wf_base2m : (Instr.base2m 0x200001#64).wellFormed = false := by decide
theorem test_wf_base1g : (Instr.base1g 0x40000001#64).wellFormed = false := by decide
theorem test_wf_compose4k : (Instr.compose4k 0x5066#64 0#64).wellFormed = false := by decide
theorem test_wf_compose2m : (Instr.compose2m 0x5003#64 0#64).wellFormed = false := by decide
theorem test_wf_compose1g : (Instr.compose1g 0x5003#64 0#64).wellFormed = false := by decide
/-- Every operand of the other operations is a legal one (rules R91, R96). -/
theorem test_wf_translate_any :
    (Instr.translate 0x123456789ABCDEF0#64 0xFFFFFFFFFFFFFFFF#64 (.script [])).wellFormed = true := by decide

/-! ### Decoding, on words written from the fields of rule R83 and bytes in the order of rule R52 -/

/-- K3 at PML4: bit 7 set, bit 0 clear. -/
theorem test_decode_pml4eNp : decode .pml4 (entryOfFields 0#12 0#40 0#4 1#1 0#4 0#1 0#1 0#1) = .pml4eNp 0x80#64 := by decide
/-- Rule R211's corner case, `0x2083`: bit 7 is not inspected. -/
theorem test_decode_pml4eTable :
    decode .pml4 (entryOfFields 0#12 2#40 0#4 1#1 0#4 0#1 1#1 1#1) = .pml4eTable 0x2083#64 := by decide
theorem test_decode_pdpteNp : decode .pdpt (entryOfFields 0#12 0#40 0#4 1#1 0#4 0#1 0#1 0#1) = .pdpteNp 0x80#64 := by
  decide
/-- E11. -/
theorem test_decode_pdptePage1g : decode .pdpt (entryOfFields 0#12 0x1C0000#40 0#4 1#1 0b1100#4 1#1 1#1 1#1) =
    .pdptePage1g 0x00000001C00000E7#64 := by decide
theorem test_decode_pdpteTable :
    decode .pdpt (entryOfFields 0#12 3#40 0#4 0#1 0#4 1#1 1#1 1#1) = .pdpteTable 0x3007#64 := by decide
/-- E12. -/
theorem test_decode_pdeNp :
    decode .pd (entryOfFields 0#12 0xDEADB#40 0#4 1#1 0b1100#4 1#1 1#1 0#1) = .pdeNp 0xDEADB0E6#64 := by decide
/-- E14. -/
theorem test_decode_pdePage2m :
    decode .pd (entryOfFields 0#12 0x40201#40 0#4 1#1 0#4 0#1 1#1 1#1) = .pdePage2m 0x40201083#64 := by decide
theorem test_decode_pdeTable :
    decode .pd (entryOfFields 0#12 4#40 0#4 0#1 0#4 1#1 1#1 1#1) = .pdeTable 0x4007#64 := by decide
theorem test_decode_pteNp :
    decode .pt (entryOfFields 0#12 0x12345#40 0#4 0#1 0b1100#4 1#1 1#1 0#1) = .pteNp 0x12345066#64 := by decide
/-- E7: bit 63 and bits 6:5 set beside a present PT entry. -/
theorem test_decode_ptePage4k : decode .pt (entryOfFields 0x800#12 0x12345#40 0#4 0#1 0b1100#4 1#1 1#1 1#1) =
    .ptePage4k 0x8000000012345067#64 := by decide
/-- The bytes of E7 in address order, present bit in the first byte (rule R52). -/
theorem test_decode_bytes : decodeBytes .pt [0x67#8, 0x50#8, 0x34#8, 0x12#8, 0#8, 0#8, 0#8, 0x80#8, 0xAA#8] =
    .entry (.ptePage4k 0x8000000012345067#64) [0xAA#8] := by decide
theorem test_decode_short : decodeBytes .pt [0x67#8, 0x50#8, 0x34#8, 0x12#8, 0#8, 0#8, 0#8] =
    .rejected (.truncatedEntry 7) := by decide
/-- K8 at each level: the same value, four meanings (rule R95). -/
theorem test_decode_by_level : decode .pml4 0xFFFFFFFFFFFFFFFF#64 = .pml4eTable 0xFFFFFFFFFFFFFFFF#64 ∧
    decode .pdpt 0xFFFFFFFFFFFFFFFF#64 = .pdptePage1g 0xFFFFFFFFFFFFFFFF#64 ∧
    decode .pd 0xFFFFFFFFFFFFFFFF#64 = .pdePage2m 0xFFFFFFFFFFFFFFFF#64 ∧
    decode .pt 0xFFFFFFFFFFFFFFFF#64 = .ptePage4k 0xFFFFFFFFFFFFFFFF#64 := by decide
theorem test_tableWord : decodeTableWord 64 0x81 = some (.pml4eTable 0x81#64) := by decide

/-! ### va_index_extractor: vectors V1 to V25 -/

/-- V5. -/
theorem test_pml4Index : driven (.pml4Index va1) = some (.index 36#9) := by decide
/-- V16 and V17: lowest and top bit of the field. -/
theorem test_pml4Index_edges : driven (.pml4Index 0x0000008000000000#64) = some (.index 1#9) ∧
    driven (.pml4Index 0x0000800000000000#64) = some (.index 256#9) := by decide
theorem test_pdptIndex : driven (.pdptIndex va1) = some (.index 209#9) := by decide
/-- V14, V15. -/
theorem test_pdptIndex_edges : driven (.pdptIndex 0x0000000040000000#64) = some (.index 1#9) ∧
    driven (.pdptIndex 0x0000004000000000#64) = some (.index 256#9) := by decide
theorem test_pdIndex : driven (.pdIndex va1) = some (.index 179#9) := by decide
/-- V12, V13. -/
theorem test_pdIndex_edges : driven (.pdIndex 0x0000000000200000#64) = some (.index 1#9) ∧
    driven (.pdIndex 0x0000000020000000#64) = some (.index 256#9) := by decide
theorem test_ptIndex : driven (.ptIndex va1) = some (.index 393#9) := by decide
/-- V10, V11. -/
theorem test_ptIndex_edges : driven (.ptIndex 0x0000000000001000#64) = some (.index 1#9) ∧
    driven (.ptIndex 0x0000000000100000#64) = some (.index 256#9) := by decide
/-- V9, V10. -/
theorem test_pageOffset : driven (.pageOffset va1) = some (.pageOffset 0xABC#12) ∧
    driven (.pageOffset 0x0000000000000800#64) = some (.pageOffset 0x800#12) ∧
    driven (.pageOffset 0x0000000000001000#64) = some (.pageOffset 0#12) := by decide
/-- V7: non-canonical, and V21. -/
theorem test_decompose : driven (.decompose 0x123456789ABCDEF0#64) = some (.fields ⟨172#9, 482#9, 213#9, 461#9, 0xEF0#12⟩) ∧
    driven (.decompose 0x00007F1234567ABC#64) = some (.fields ⟨254#9, 72#9, 418#9, 359#9, 0xABC#12⟩) := by decide
/-- V2, V3: the canonical addresses next to the hole. -/
theorem test_isCanonical_yes : driven (.isCanonical 0x00007FFFFFFFFFFF#64) = some (.bit true) ∧
    driven (.isCanonical 0xFFFF800000000000#64) = some (.bit true) := by decide
/-- V17, V18, V19, V24, V25. -/
theorem test_isCanonical_no : driven (.isCanonical 0x0000800000000000#64) = some (.bit false) ∧
    driven (.isCanonical 0x0001000000000000#64) = some (.bit false) ∧
    driven (.isCanonical 0x8000000000000000#64) = some (.bit false) ∧
    driven (.isCanonical 0xFFFF000000000000#64) = some (.bit false) ∧
    driven (.isCanonical 0xFFFF7FFFFFFFFFFF#64) = some (.bit false) := by decide

/-! ### pte_decoder_and_validator: vectors E and K -/

theorem test_present : driven (.present 0x2003#64) = some (.bit true) ∧
    driven (.present 0xFFFFFFFFFFFFFFFE#64) = some (.bit false) := by decide
/-- The examples of rules R141 and R142, and E2. -/
theorem test_writable : driven (.writable 0x2003#64) = some (.bit true) ∧ driven (.writable 0x1#64) = some (.bit false) := by
  decide
theorem test_user : driven (.user 0x2003#64) = some (.bit false) ∧ driven (.user 0x2007#64) = some (.bit true) := by decide
/-- E3, E10. -/
theorem test_pageSize : driven (.pageSize 0x80#64) = some (.bit true) ∧
    driven (.pageSize 0xFFFFFFFFFFFFFF7F#64) = some (.bit false) := by decide
/-- E7, E8. -/
theorem test_physicalBase : driven (.physicalBase 0x8000000012345067#64) = some (.address 0x12345000#64) ∧
    driven (.physicalBase 0xFFFFFFFFFFFFFFFF#64) = some (.address 0x000FFFFFFFFFF000#64) := by decide
/-- E7. -/
theorem test_decodeEntry : driven (.decodeEntry 0x8000000012345067#64) =
    some (.entry ⟨true, true, true, false, 0x12345000#64⟩) := by decide
/-- E12, and E13: only ignored bits and P. -/
theorem test_decodeEntry_ignored : driven (.decodeEntry 0xDEADB0E6#64) =
      some (.entry ⟨false, true, true, true, 0xDEADB000#64⟩) ∧
    driven (.decodeEntry 0xFFF0000000000F79#64) = some (.entry ⟨true, false, false, false, 0#64⟩) := by decide
/-- K4: P and PS set, at each level. -/
theorem test_classify_ps : driven (.classify .pml4 0x81#64) = some (.kind .pml4eTable) ∧
    driven (.classify .pdpt 0x81#64) = some (.kind .pdptePage1g) ∧ driven (.classify .pd 0x81#64) = some (.kind .pdePage2m) ∧
    driven (.classify .pt 0x81#64) = some (.kind .ptePage4k) := by decide
/-- K7: presence first, at each level. -/
theorem test_classify_np : driven (.classify .pml4 0xFFFFFFFFFFFFFFFE#64) = some (.kind .pml4eNp) ∧
    driven (.classify .pdpt 0xFFFFFFFFFFFFFFFE#64) = some (.kind .pdpteNp) ∧
    driven (.classify .pd 0xFFFFFFFFFFFFFFFE#64) = some (.kind .pdeNp) ∧
    driven (.classify .pt 0xFFFFFFFFFFFFFFFE#64) = some (.kind .pteNp) := by decide

/-! ### physical_address_composer: vectors B, A, E, C -/

/-- B3, B6. -/
theorem test_rootBase : driven (.rootBase 0x1005#64) = some (.address 0x1000#64) ∧
    driven (.rootBase 0x80000000ABCDE018#64) = some (.address 0xABCDE000#64) := by decide
/-- The example of rule R172, and B5. -/
theorem test_nextBase : driven (.nextBase 0x2003#64) = some (.address 0x2000#64) ∧
    driven (.nextBase 0xFFFFFFFFFFFFFFFF#64) = some (.address 0x000FFFFFFFFFF000#64) := by decide
/-- A4, A9. -/
theorem test_entryAddr : driven (.entryAddr 0x1000#64 36#9) = some (.address 0x1120#64) ∧
    driven (.entryAddr 0x000FFFFFFFFFF000#64 511#9) = some (.address 0x000FFFFFFFFFFFF8#64) := by decide
/-- E15, E14. -/
theorem test_base2m : driven (.base2m 0x7FFFF1E3#64) = some (.address 0x7FE00000#64) ∧
    driven (.base2m 0x40201083#64) = some (.address 0x40200000#64) := by decide
/-- E15, E11. -/
theorem test_base1g : driven (.base1g 0x7FFFF1E3#64) = some (.address 0x40000000#64) ∧
    driven (.base1g 0x00000001C00000E7#64) = some (.address 0x00000001C0000000#64) := by decide
/-- V5, V22. -/
theorem test_offset2m : driven (.offset2m va1) = some (.offset2m 0x189ABC#21) ∧
    driven (.offset2m 0xFFFFFF7FBFDFE000#64) = some (.offset2m 0x1FE000#21) := by decide
/-- V5, V22. -/
theorem test_offset1g : driven (.offset1g va1) = some (.offset1g 0x16789ABC#30) ∧
    driven (.offset1g 0xFFFFFF7FBFDFE000#64) = some (.offset1g 0x3FDFE000#30) := by decide
/-- C1, C7. -/
theorem test_compose4k : driven (.compose4k 0x8000000012345067#64 va1) = some (.address 0x12345ABC#64) ∧
    driven (.compose4k 0xFFFFFFFFFFFFFFFF#64 0xFFFFFFFFFFFFFFFF#64) = some (.address 0x000FFFFFFFFFFFFF#64) := by decide
/-- C2, C3: ones in bits 20:12 of the entry are dropped. -/
theorem test_compose2m : driven (.compose2m 0x40201083#64 va1) = some (.address 0x40389ABC#64) ∧
    driven (.compose2m 0x7FFFF1E3#64 va1) = some (.address 0x7FF89ABC#64) := by decide
/-- C3, C11. -/
theorem test_compose1g : driven (.compose1g 0x7FFFF1E3#64 va1) = some (.address 0x56789ABC#64) ∧
    driven (.compose1g 0x00000001C00000E7#64 0xFFFF888001234567#64) = some (.address 0x00000001C1234567#64) := by decide

/-! ### The ten entry kinds: the worked examples of rules R210 to R219 -/

/-- Rule R210: `raw = 0`. -/
theorem test_pml4eNp : (stateOf (exec (.pml4eNp 0#64) (at_ (.atPml4 (walkP1 0x1000#64) 0#64)))).bind failure =
    some (.notPresent, some .pml4, some 0#64) := by decide
/-- Rule R211: `0x2083` behaves as `0x2003`. -/
theorem test_pml4eTable : (stateOf (exec (.pml4eTable 0x2083#64) (at_ (.atPml4 (walkP1 0x1000#64) 0x2083#64)))).map State.walker =
    some (.atPdpt (walkP1 0x2000#64)) := by decide
/-- Rule R212: `raw = 0x80` is not a 1 GiB page. -/
theorem test_pdpteNp : (stateOf (exec (.pdpteNp 0x80#64) (at_ (.atPdpt (walkP1 0x2000#64))))).bind failure =
    some (.notPresent, some .pdpt, some 0x80#64) := by decide
/-- W6. -/
theorem test_pdptePage1g : (stateOf (exec (.pdptePage1g 0x00000001C00000E7#64) (at_ (.atPdpt (walkP1 0x2000#64))))).bind
    physicalAddress = some 0x00000001D6789ABC#64 := by decide
/-- Rule R214. -/
theorem test_pdpteTable : (stateOf (exec (.pdpteTable 0x3007#64) (at_ (.atPdpt (walkP1 0x2000#64))))).map State.walker =
    some (.atPd (walkP1 0x3000#64)) := by decide
/-- Rule R215. -/
theorem test_pdeNp : (stateOf (exec (.pdeNp 0xDEADB0E6#64) (at_ (.atPd (walkP1 0x3000#64))))).bind failure =
    some (.notPresent, some .pd, some 0xDEADB0E6#64) := by decide
/-- Rule R216. -/
theorem test_pdePage2m : (stateOf (exec (.pdePage2m 0x7FFFF1E3#64) (at_ (.atPd (walkP1 0x3000#64))))).bind
    physicalAddress = some 0x7FF89ABC#64 := by decide
/-- Rule R217. -/
theorem test_pdeTable : (stateOf (exec (.pdeTable 0x4007#64) (at_ (.atPd (walkP1 0x3000#64))))).map State.walker =
    some (.atPt (walkP1 0x4000#64)) := by decide
/-- Rule R218. -/
theorem test_pteNp : (stateOf (exec (.pteNp 0x12345066#64) (at_ (.atPt (walkP1 0x4000#64))))).bind failure =
    some (.notPresent, some .pt, some 0x12345066#64) := by decide
/-- Rule R219: bit 7 is not inspected, `0x5083` maps the page at `0x5000`. -/
theorem test_ptePage4k : (stateOf (exec (.ptePage4k 0x5083#64) (at_ (.atPt (walkP1 0x4000#64))))).bind
    physicalAddress = some 0x5ABC#64 := by decide

/-! ### TRANSLATE and the steps: programs P1 to P12 and the outcomes W1 to W12 -/

/-- P1 (W12): four levels; the address, the reads in order and the tables of the trace. -/
theorem test_translate_P1 :
    (translated imageP1 va1 0x1000#64).map (fun t => (physicalAddress t, t.reads.map ReadEvent.addr, (trace t).map WalkStep.table))
      = some (some 0x12345ABC#64, [0x1120#64, 0x2688#64, 0x3598#64, 0x4C48#64], [0x1000#64, 0x2000#64, 0x3000#64, 0x4000#64]) := by
  decide
/-- P5: the PD read at `0x9598` fails; the trace holds exactly the PML4 and PDPT steps. -/
theorem test_translate_P5 :
    let o := translated (image [(0x1120#64, 0x2007#64), (0x2688#64, 0x9007#64)]) va1 0x1000#64
    o.bind failure = some (.readFailure, some .pd, none) ∧
      o.map (fun t => (t.reads.map ReadEvent.addr, (trace t).map WalkStep.level))
        = some ([0x1120#64, 0x2688#64, 0x9598#64], [.pml4, .pdpt]) := by decide
/-- P11: the largest address the block issues and the largest result. -/
theorem test_step_P11 :
    (translated (image [(0x000FFFFFFFFFFFF8#64, 0xFFFFFFFFFFFFFFFF#64)]) 0xFFFFFFFFFFFFFFFF#64 0xFFFFFFFFFFFFFFFF#64).map
      (fun t => (physicalAddress t, t.reads.map ReadEvent.addr))
      = some (some 0x000FFFFFFFFFFFFF#64, [0x000FFFFFFFFFFFF8#64, 0x000FFFFFFFFFFFF8#64]) := by decide
/-- P7b: rejected before any read. -/
theorem test_step_P7b :
    let o := stateOf (step { ready [] with
      policy := .reject, inputs := [.request ⟨0x123456789ABCDEF0#64, 0x1000#64, .memory ⟨0⟩⟩] })
    o.bind failure = some (.invalidInput, none, none) ∧ o.map (fun t => (t.reads, trace t)) = some ([], []) := by decide
/-- Rule R202's example: `tbl = 0x1000`, one read at `0x1120`, `raw = 0x2007`, `AtPML4`. -/
theorem test_step_start :
    (stateOf (step { ready imageP1 with inputs := [.request ⟨va1, 0x1000#64, .memory ⟨0⟩⟩] })).map State.walker =
      some (.atPml4 ⟨va1, 0x1000#64, .memory ⟨0⟩, 0x1000#64,
        [⟨.pml4, 0x1000#64, 36#9, 0x2007#64, ⟨true, true, true, false, 0x2000#64⟩⟩]⟩ 0x2007#64) := by decide
/-- Rule R204's example: reads `0x2688`, gets `0x3007`, `tbl <- 0x3000`, `AtPD`. -/
theorem test_step_pdpt :
    (stateOf (step { ready imageP1 with walker := .atPdpt (walkP1 0x2000#64) })).map
      (fun t => (walkAt .pd t.walker).map Walk.tbl) = some (some 0x3000#64) := by decide
/-- Rule R206's example. -/
theorem test_step_pt :
    (stateOf (step { ready imageP1 with walker := .atPt (walkP1 0x4000#64) })).bind physicalAddress = some 0x12345ABC#64 := by
  decide
/-- A byte another agent writes between two reads of a walk is seen by the second (rules R66, R301). -/
theorem test_step_store :
    (stateOf (step { ready imageP1 with inputs := [.store 0x4C48#64 0x66#8] })).map
      (fun t => t.mem.readQword 0x4C48#64) = some (some 0x8000000012345066#64) := by decide
/-- A byte that becomes inaccessible makes its entry unreadable (rules R50, R67). -/
theorem test_step_unmap :
    (stateOf (step { ready imageP1 with inputs := [.unmap 0x4C4F#64] })).map (fun t => t.mem.readQword 0x4C48#64) =
      some none := by decide
/-- The first step after reset with an entry placed executes that entry (log entry 7). -/
theorem test_withFetchWord :
    (stateOf (step (State.reset.withFetchWord 64 0x2007))).map (fun t => (walkAt .pdpt t.walker).map Walk.tbl) =
      some (some 0x2000#64) := by decide

/-- The lines of program P1 assemble to the raw values and addresses the spec gives (rule R98). -/
theorem test_image_P1 :
    imageOf [⟨0x1000#64, 36#9, 0x2000#64, true, true, true, false, 0#64⟩,
      ⟨0x2000#64, 209#9, 0x3000#64, true, true, true, false, 0#64⟩,
      ⟨0x3000#64, 179#9, 0x4000#64, true, true, true, false, 0#64⟩,
      ⟨0x4000#64, 393#9, 0x12345000#64, true, true, true, false, 0x8000000000000060#64⟩] = imageP1 := by decide

/-! ### Witnesses: the hypotheses of each statement can be met -/

/-- A state in each walker state, for the statements that name one. -/
def inPml4 (raw : Word) : State := at_ (.atPml4 (walkP1 0x1000#64) raw)

/-- DecodeOfEncodedBytesIsTheEntry: at both values of a bit the decoder tests. -/
theorem witness_DecodeOfEncodedBytes :
    (Instr.ptePage4k 0x8000000012345067#64).wellFormed = true ∧
      encode (.ptePage4k 0x8000000012345067#64) = some (.pt, 0x8000000012345067#64) ∧
      (Instr.pdptePage1g 0xFFFFFFFFFFFFFFFF#64).wellFormed = true ∧
      encode (.pdptePage1g 0xFFFFFFFFFFFFFFFF#64) = some (.pdpt, 0xFFFFFFFFFFFFFFFF#64) := by decide
/-- EntryMapIsExhaustiveAndExclusive: a kind of the level that admits the entry. -/
theorem witness_EntryMap : EntryKind.pdptePage1g.level = .pdpt ∧
    (0x81#64 : Word) &&& EntryKind.pdptePage1g.mask = EntryKind.pdptePage1g.matchBits := by decide
/-- ClassifyGivesTheDecodedKind: the two clauses. -/
theorem witness_Classify : (0xFFFFFFFFFFFFFFFE#64 : Word).getLsbD 0 = false ∧ (0x1#64 : Word).getLsbD 0 = true := by decide
/-- ShortBytesAreRejected: none and seven. -/
theorem witness_ShortBytes : ([] : List Byte).length < 8 ∧ [0#8, 0#8, 0#8, 0#8, 0#8, 0#8, 0#8].length < 8 := by decide
/-- QwordReadIsLittleEndianSum: eight readable bytes at the top of the space; a missing last byte, and so no value. -/
theorem witness_QwordRead :
    ((image [(0xFFFFFFFFFFFFFFF8#64, 0x0807060504030201#64)]).readQword 0xFFFFFFFFFFFFFFF8#64 = some 0x0807060504030201#64) ∧
      (image [(0x1000#64, 0#64)]).read (0x1001 + 7) = none ∧
      (image [(0x1000#64, 0#64)]).readQword 0x1001#64 = none := by decide
/-- FieldFunctionsExtractTheirBits: the two halves of the canonical addresses (V3, V2). -/
theorem witness_FieldFunctions : (0xFFFF800000000000#64 : Word).extractLsb' 47 17 = 0x1FFFF#17 ∧
    (0x00007FFFFFFFFFFF#64 : Word).extractLsb' 47 17 = 0#17 := by decide
/-- DecodeDependsOnlyOnTheModelledBits: E13 and E2. -/
theorem witness_DecodeDepends : (0xFFF0000000000F79#64 : Word) &&& 0x000FFFFFFFFFF087#64 = 0x1#64 &&& 0x000FFFFFFFFFF087#64 := by
  decide
/-- EntryAddressStaysInItsTable: the lowest and the highest table (A1, A9). -/
theorem witness_EntryAddress : (0#64 : Word) &&& 0x000FFFFFFFFFF000#64 = 0#64 ∧
    (0x000FFFFFFFFFF000#64 : Word) &&& 0x000FFFFFFFFFF000#64 = 0x000FFFFFFFFFF000#64 := by decide
/-- NotPresentEntriesFail, TableEntriesDescend, LeafEntriesResolve: a state at each level. -/
theorem witness_EntryLevels : (inPml4 0x2007#64).walker = .atPml4 (walkP1 0x1000#64) 0x2007#64 ∧
    (at_ (.atPdpt (walkP1 0x2000#64))).walker = .atPdpt (walkP1 0x2000#64) ∧
    (at_ (.atPd (walkP1 0x3000#64))).walker = .atPd (walkP1 0x3000#64) ∧
    (at_ (.atPt (walkP1 0x4000#64))).walker = .atPt (walkP1 0x4000#64) := by decide
/-- EntriesStopOutsideTheirLevel: the state after reset is at no level. -/
theorem witness_EntriesStop : (∀ w held, State.reset.walker ≠ .atPml4 w held) ∧ (∀ w, State.reset.walker ≠ .atPdpt w) ∧
    (∀ w, State.reset.walker ≠ .atPd w) ∧ (∀ w, State.reset.walker ≠ .atPt w) := by
  refine ⟨?_, ?_, ?_, ?_⟩ <;> intros <;> exact Walker.noConfusion
/-- IgnoredEntryBitsHaveNoEffect: present entries at each level that differ in ignored bits, and two not-present ones. -/
theorem witness_IgnoredBits :
    (0x2007#64 : Word) &&& relevantMask .pml4 0x2007#64 = 0x80000000000020E1#64 &&& relevantMask .pml4 0x2007#64 ∧
    (0x7FFFF1E3#64 : Word) &&& relevantMask .pdpt 0x7FFFF1E3#64 = 0x40000081#64 &&& relevantMask .pdpt 0x7FFFF1E3#64 ∧
    (0x7FFFF1E3#64 : Word) &&& relevantMask .pd 0x7FFFF1E3#64 = 0x7FE00081#64 &&& relevantMask .pd 0x7FFFF1E3#64 ∧
    (0x5083#64 : Word) &&& relevantMask .pt 0x5083#64 = 0x5001#64 &&& relevantMask .pt 0x5083#64 ∧
    (0xDEADB0E6#64 : Word) &&& relevantMask .pd 0xDEADB0E6#64 = 0#64 &&& relevantMask .pd 0xDEADB0E6#64 := by decide
/-- HostIdle both ways: no move left, and an idle move. -/
theorem witness_HostIdle : HostIdle State.reset [] ∧ HostIdle { State.reset with inputs := [.idle, .reset] } [.reset] :=
  ⟨.inl ⟨rfl, rfl⟩, .inr rfl⟩
/-- StepExecutesTheFetchedEntry: at PDPT, PD and PT of program P1 the entry of the level is read. -/
theorem witness_StepExecutes : HostIdle (ready imageP1) [] ∧
    memRead (walkP1 0x2000#64).reader imageP1 (entryAddr 0x2000#64 (pdptIndex va1)) = some (.ok 0x3007#64, .memory ⟨0⟩) ∧
    memRead (walkP1 0x3000#64).reader imageP1 (entryAddr 0x3000#64 (pdIndex va1)) = some (.ok 0x4007#64, .memory ⟨0⟩) ∧
    memRead (walkP1 0x4000#64).reader imageP1 (entryAddr 0x4000#64 (ptIndex va1)) =
      some (.ok 0x8000000012345067#64, .memory ⟨0⟩) :=
  ⟨.inl ⟨rfl, rfl⟩, by decide, by decide, by decide⟩
/-- StartStepReadsThePml4Entry: an answer (P1), an error (P10) and no answer. -/
theorem witness_StartStep : State.reset.walker = .start none ∧ Admitted State.reset.policy va1 ∧
    memRead (.memory ⟨0⟩) imageP1 (entryAddr (rootBase 0x1000#64) (pml4Index va1)) = some (.ok 0x2007#64, .memory ⟨0⟩) ∧
    memRead (.memory ⟨0⟩) [] (entryAddr (rootBase 0x1000#64) (pml4Index va1)) = some (.err ⟨0⟩, .memory ⟨0⟩) ∧
    memRead (.script []) [] (entryAddr (rootBase 0x1000#64) (pml4Index va1)) = none :=
  ⟨rfl, nofun, by decide, by decide, rfl⟩
/-- ReadErrorEndsTheWalk: an empty image refuses the read of each level. -/
theorem witness_ReadError :
    memRead (walkP1 0x2000#64).reader [] (entryAddr 0x2000#64 (pdptIndex va1)) = some (.err ⟨0⟩, .memory ⟨0⟩) ∧
    memRead (walkP1 0x3000#64).reader [] (entryAddr 0x3000#64 (pdIndex va1)) = some (.err ⟨0⟩, .memory ⟨0⟩) ∧
    memRead (walkP1 0x4000#64).reader [] (entryAddr 0x4000#64 (ptIndex va1)) = some (.err ⟨0⟩, .memory ⟨0⟩) := by decide
/-- UnansweredReadLeavesTheWalker: a walker that waits in each of the four states. -/
theorem witness_Unanswered :
    (at_ (.start (some ⟨va1, 0x1000#64, .script []⟩))).walker = .start (some ⟨va1, 0x1000#64, .script []⟩) ∧
    memRead (.script []) [] (entryAddr (rootBase 0x1000#64) (pml4Index va1)) = none ∧
    memRead { walkP1 0x2000#64 with reader := .script [] }.reader [] (entryAddr 0x2000#64 (pdptIndex va1)) = none ∧
    memRead { walkP1 0x3000#64 with reader := .script [] }.reader [] (entryAddr 0x3000#64 (pdIndex va1)) = none ∧
    memRead { walkP1 0x4000#64 with reader := .script [] }.reader [] (entryAddr 0x4000#64 (ptIndex va1)) = none := by decide
/-- NonCanonicalRequestFollowsThePolicy: P7b under `reject`; under `truncate` a translation of the same address ends. -/
theorem witness_NonCanonical : ({ State.reset with policy := .reject } : State).policy = .reject ∧
    isCanonical 0x123456789ABCDEF0#64 = false ∧ State.reset.walker = .start none ∧ State.reset.policy = .truncate ∧
    ∃ t, exec (.translate 0x123456789ABCDEF0#64 0x1000#64 (.memory ⟨0⟩)) State.reset = .next t :=
  ⟨rfl, by decide, rfl, rfl, _, rfl⟩
/-- RequestWhileBusyHasNoEffect: a walk in progress, a terminal state, and `Start` with a request taken. -/
theorem witness_Busy : (inPml4 0#64).walker ≠ .start none ∧ (at_ (.resolved 0#64 0#64 0#64 [])).walker ≠ .start none ∧
    (at_ (.start (some ⟨0#64, 0#64, .script []⟩))).walker ≠ .start none := by decide
/-- ResultIsHeldUntilRetired: both terminal states, and one that is not. -/
theorem witness_Terminal : (at_ (.resolved 0#64 0#64 0#64 [])).walker.Terminal ∧
    (at_ (.failed 0#64 0#64 .invalidInput none none none [])).walker.Terminal ∧ ¬ State.reset.walker.Terminal :=
  ⟨trivial, trivial, id⟩
/-- ResultIsHeldUntilRetired: `Retire` as the next move in `Resolved`, in `Failed` and in a walk that has not ended. -/
theorem witness_Retire :
    (({ at_ (.resolved 0#64 0#64 0#64 []) with inputs := [.retire] } : State).walker.Terminal ∧
      ({ at_ (.resolved 0#64 0#64 0#64 []) with inputs := [.retire] } : State).inputs = .retire :: []) ∧
    (({ at_ (.failed 0#64 0#64 .notPresent (some .pml4) (some 0#64) none []) with inputs := [.retire, .idle] } : State).walker.Terminal ∧
      ({ at_ (.failed 0#64 0#64 .notPresent (some .pml4) (some 0#64) none []) with inputs := [.retire, .idle] } : State).inputs =
        .retire :: [.idle]) ∧
    (¬ ({ inPml4 0x2007#64 with inputs := [.retire] } : State).walker.Terminal ∧
      ({ inPml4 0x2007#64 with inputs := [.retire] } : State).inputs = .retire :: []) :=
  ⟨⟨trivial, rfl⟩, ⟨trivial, rfl⟩, id, rfl⟩
/-- ResetAbandonsTheTranslation: a reset in the middle of a walk. -/
theorem witness_Reset : ({ inPml4 0x2007#64 with inputs := [.reset] } : State).inputs = .reset :: [] := rfl
/-- WalkMovesOnlyForward: a step of P1 whose move is neither `Retire` nor a reset. -/
theorem witness_Forward : (∃ t, step { ready imageP1 with walker := .atPdpt (walkP1 0x2000#64) } = .next t) ∧
    (∀ rest, ({ ready imageP1 with walker := .atPdpt (walkP1 0x2000#64) } : State).inputs ≠ .retire :: rest) ∧
    (∀ rest, ({ ready imageP1 with walker := .atPdpt (walkP1 0x2000#64) } : State).inputs ≠ .reset :: rest) :=
  ⟨⟨_, rfl⟩, nofun, nofun⟩
/-- NoOperationWritesMemory, OperationsKeepWhatTheyDoNotWrite: an entry kind, a function and `TRANSLATE` each answer a next
state. -/
theorem witness_Operations : (∃ t, exec (.pml4eTable 0x2007#64) (inPml4 0x2007#64) = .next t) ∧
    encode (.pml4eTable 0x2007#64) ≠ none ∧ (∃ t, exec (.present 0#64) State.reset = .next t) ∧
    encode (.present 0#64) = none ∧ (∀ va tb reader, Instr.present 0#64 ≠ .translate va tb reader) ∧
    ∃ t, exec (.translate va1 0x1000#64 (.memory ⟨0⟩)) State.reset = .next t :=
  ⟨⟨_, rfl⟩, by decide, ⟨_, rfl⟩, rfl, nofun, _, rfl⟩
/-- StepWritesMemoryOnlyForOtherAgents, StepKeepsMemoryCanonical: a store of another byte than memory holds, an erasure of a byte
that is readable, and a move of neither kind, over memory in canonical form. -/
theorem witness_MemoryMoves : (∃ t, step { ready imageP1 with inputs := [.store 0x1120#64 0#8] } = .next t) ∧
    (∃ t, step { ready imageP1 with inputs := [.unmap 0x1120#64] } = .next t) ∧
    (∀ addr byte rest, ({ ready imageP1 with inputs := [.idle] } : State).inputs ≠ .store addr byte :: rest) ∧
    (∀ addr rest, ({ ready imageP1 with inputs := [.idle] } : State).inputs ≠ .unmap addr :: rest) ∧ imageP1.wf = true ∧
    imageP1.read 0x1120 = some 7#8 :=
  ⟨⟨_, rfl⟩, ⟨_, rfl⟩, nofun, nofun, by decide, by decide⟩
/-- StepKeepsTheWalkSound, SoundAddressesAreAlignedAndBounded: a sound walk at PDPT whose step answers, with a read made. -/
theorem witness_Sound :
    let w : Walk := { walkP1 0x2000#64 with steps := [walkStepOf .pml4 0x1000#64 36#9 0x2007#64] }
    let s : State := { ready imageP1 with walker := .atPdpt w, reads := [⟨0x1120#64, .ok 0x2007#64⟩] }
    s.Sound ∧ (∃ t, step s = .next t) ∧ s.reads ≠ [] ∧ walkAt .pdpt s.walker = some w :=
  ⟨⟨nofun, ⟨0x2007#64, [], rfl, ⟨rfl, by simp⟩, rfl, rfl⟩, rfl⟩, ⟨_, rfl⟩, by decide, rfl⟩
/-- A sound resolved state, as program P3 leaves it. -/
theorem witness_Sound_resolved :
    State.Sound { State.reset with
      walker := .resolved 0xFFFF888001234567#64 0x1000#64 0x00000001C1234567#64
        [walkStepOf .pml4 0x1000#64 273#9 0x2003#64, walkStepOf .pdpt 0x2000#64 0#9 0x00000001C00000E7#64]
      reads := [⟨0x1888#64, .ok 0x2003#64⟩, ⟨0x2000#64, .ok 0x00000001C00000E7#64⟩] } :=
  ⟨nofun, .pdpt, [walkStepOf .pml4 0x1000#64 273#9 0x2003#64], 0x2000#64, 0x00000001C00000E7#64,
    ⟨0x2003#64, [], rfl, ⟨rfl, by simp⟩, rfl, rfl⟩, rfl, by decide, rfl⟩
/-- EachStepReadsAtMostOnce: a step without a move that reads; a request taken in `Start`, whose step reads; a request turned
away and a store, whose steps do not. -/
theorem witness_EachStep :
    (HostIdle { ready imageP1 with walker := .atPdpt (walkP1 0x2000#64) } [] ∧
      ∃ t, step { ready imageP1 with walker := .atPdpt (walkP1 0x2000#64) } = .next t) ∧
    ((ready imageP1).walker = .start none ∧
      ∃ t, step { ready imageP1 with inputs := [.request ⟨va1, 0x1000#64, .memory ⟨0⟩⟩] } = .next t ∧
        t.reads = [⟨0x1120#64, .ok 0x2007#64⟩]) ∧
    ((inPml4 0x2007#64).walker ≠ .start none ∧
      ∃ t, step { inPml4 0x2007#64 with inputs := [.request ⟨va1, 0x1000#64, .memory ⟨0⟩⟩] } = .next t) ∧
    (HostInput.store 0x1120#64 0#8 ≠ .idle ∧ (∀ r, HostInput.store 0x1120#64 0#8 ≠ .request r) ∧
      ∃ t, step { ready imageP1 with inputs := [.store 0x1120#64 0#8] } = .next t) :=
  ⟨⟨.inl ⟨rfl, rfl⟩, _, rfl⟩, ⟨rfl, _, rfl, by decide⟩, ⟨by decide, _, rfl⟩, by decide, nofun, _, rfl⟩
/-- TranslateEqualsTheSteps, and the statements about `TRANSLATE` from `Start`: the state after reset. -/
theorem witness_Translate : State.reset.walker = .start none ∧ State.reset.inputs = [] ∧ Admitted State.reset.policy va1 ∧
    ∃ t, exec (.translate va1 0x1000#64 (.memory ⟨0⟩)) State.reset = .next t := ⟨rfl, rfl, nofun, _, rfl⟩
/-- TranslateEndsWhenReadsAreAnswered, RepeatedTranslateIsIdentical: both readers, the script at its shortest. -/
theorem witness_Answers : answersReads Config.maxReads (.memory ⟨0⟩) ∧
    answersReads Config.maxReads (.script [.ok 0#64, .ok 0#64, .ok 0#64, .ok 0#64]) := ⟨trivial, Nat.le_refl 4⟩
/-- The three walks to a leaf: entries of P1, P2 and P3 that lead down and end in a leaf. -/
theorem witness_Leaves : LeadsDown .pml4 0x2007#64 ∧ LeadsDown .pdpt 0x3007#64 ∧ LeadsDown .pd 0x4007#64 ∧
    present 0x8000000012345067#64 = true ∧ present 0x7FFFF1E3#64 = true ∧ pageSize 0x7FFFF1E3#64 = true ∧
    present 0x00000001C00000E7#64 = true ∧ pageSize 0x00000001C00000E7#64 = true :=
  ⟨⟨rfl, by simp⟩, ⟨rfl, fun _ => rfl⟩, ⟨rfl, fun _ => rfl⟩, by decide⟩
/-- A PML4 entry leads down with bit 7 set (P8). -/
theorem witness_LeadsDown_pml4 : LeadsDown .pml4 0x2083#64 := ⟨rfl, by simp⟩
/-- UpperAddressBitsHaveNoEffect: V7 and V8, and a translation of V7 under `truncate`. -/
theorem witness_UpperBits : (0x123456789ABCDEF0#64 : Word).extractLsb' 0 48 = (0x000056789ABCDEF0#64 : Word).extractLsb' 0 48 ∧
    State.reset.policy = .truncate ∧
    ∃ t, exec (.translate 0x123456789ABCDEF0#64 0x1000#64 (.memory ⟨0⟩)) State.reset = .next t := ⟨by decide, rfl, _, rfl⟩

end Sys2Proof.Tests
end

section
/-! The statements of spec/00_scope.md: every state has a next state, and `TRANSLATE` ends when its reads are answered. -/

namespace Sys2Proof.Machine

open Sys2Proof

/-! ### Where the walker is not at a level (rules R203 to R206) -/

/-- Away from `AtPML4` there is no walk at PML4. -/
theorem walkAt_pml4_eq_none {x : Walker} (h : ∀ w held, x ≠ .atPml4 w held) : walkAt .pml4 x = none := by
  cases x with
  | atPml4 w held => exact absurd rfl (h w held)
  | _ => rfl

/-- Away from `AtPDPT` there is no walk at PDPT. -/
theorem walkAt_pdpt_eq_none {x : Walker} (h : ∀ w, x ≠ .atPdpt w) : walkAt .pdpt x = none := by
  cases x with
  | atPdpt w => exact absurd rfl (h w)
  | _ => rfl

/-- Away from `AtPD` there is no walk at PD. -/
theorem walkAt_pd_eq_none {x : Walker} (h : ∀ w, x ≠ .atPd w) : walkAt .pd x = none := by
  cases x with
  | atPd w => exact absurd rfl (h w)
  | _ => rfl

/-- Away from `AtPT` there is no walk at PT. -/
theorem walkAt_pt_eq_none {x : Walker} (h : ∀ w, x ≠ .atPt w) : walkAt .pt x = none := by
  cases x with
  | atPt w => exact absurd rfl (h w)
  | _ => rfl

/-- Settles O21: each entry kind is executed through `atLevel`, which stops where there is no walk at the level. -/
theorem entriesStopOutsideTheirLevel : Obligations.EntriesStopOutsideTheirLevel := by
  intro s raw
  refine ⟨fun h => ?_, fun h => ?_, fun h => ?_, fun h => ?_⟩
  · have hw := walkAt_pml4_eq_none h
    exact ⟨atLevel_out_of_place _ hw, atLevel_out_of_place _ hw⟩
  · have hw := walkAt_pdpt_eq_none h
    exact ⟨atLevel_out_of_place _ hw, atLevel_out_of_place _ hw, atLevel_out_of_place _ hw⟩
  · have hw := walkAt_pd_eq_none h
    exact ⟨atLevel_out_of_place _ hw, atLevel_out_of_place _ hw, atLevel_out_of_place _ hw⟩
  · have hw := walkAt_pt_eq_none h
    exact ⟨atLevel_out_of_place _ hw, atLevel_out_of_place _ hw⟩

/-! ### Every step answers (rules R15, R273) -/

/-- The decoder only gives an entry of its own level, so an entry executed at its level has a next state. -/
theorem exec_decode_next {level : Level} {s : State} {w : Walk} (raw : Word) (h : walkAt level s.walker = some w) :
    ∃ t, exec (decode level raw) s = .next t := by
  rw [exec_decode_at raw h]
  split
  · exact ⟨_, rfl⟩
  · split <;> exact ⟨_, rfl⟩

/-- The walker's own step has a next state: the entry it fetches is executed where the walker stands. -/
theorem walkStep_next (s : State) : ∃ t, walkStep s = .next t := by
  rw [walkStep]
  cases h : nextEntry s with
  | settled t => exact ⟨t, rfl⟩
  | entry level raw t =>
    obtain ⟨w, hw⟩ := walkAt_of_nextEntry h
    exact exec_decode_next raw hw

/-- Settles O33: a move of the host always answers, and without one the walker's own step does. -/
theorem everyStepAnswersANextState : Obligations.EveryStepAnswersANextState := by
  intro s
  rw [step]
  split
  · exact walkStep_next s
  · exact walkStep_next _
  all_goals exact ⟨_, rfl⟩

/-- Settles O32: the fields of `State.reset`, and the stuttering step of a walker in `Start` without a request. -/
theorem resetStateIsStart : Obligations.ResetStateIsStart := ⟨rfl, rfl, rfl, rfl, rfl, rfl, rfl, rfl⟩

/-! ### Readers that answer (rule R300) -/

/-- A reader with an answer left answers the next read. -/
theorem fetch_ne_unanswered {n : Nat} {level : Level} {w : Walk} (s : State) (h : answersReads (n + 1) w.reader) :
    fetch level w s ≠ .unanswered := by
  have hscript : w.reader ≠ .script [] := by
    intro heq
    rw [heq] at h
    exact absurd h (Nat.not_succ_le_zero n)
  intro hf
  rcases fetch_cases level w s with ⟨hm, _⟩ | ⟨_, _, _, h'⟩ | ⟨_, _, _, h'⟩
  · rcases memRead_cases w.reader s.mem (entryAddr w.tbl (indexAt level w.va)) with
      ⟨_, heq⟩ | ⟨_, _, _, h'⟩ | ⟨_, _, _, _, h'⟩ | ⟨_, _, _, h'⟩
    · exact hscript heq
    all_goals rw [hm] at h'; cases h'
  all_goals rw [hf] at h'; cases h'

/-- A read uses up one answer. -/
theorem answersReads_of_memRead {n : Nat} {reader reader' : Reader} {m : Memory} {addr : Word} {a : ReadAnswer}
    (h : memRead reader m addr = some (a, reader')) (hr : answersReads (n + 1) reader) : answersReads n reader' := by
  rcases memRead_reader h with ⟨_, rfl, rfl⟩ | ⟨rest, rfl, rfl⟩
  · trivial
  · exact Nat.le_of_succ_le_succ hr

/-- The reader of a fetched walk has one answer less. -/
theorem answersReads_of_fetched {n : Nat} {level : Level} {w w' : Walk} {s t : State} {raw : Word}
    (h : fetch level w s = .fetched raw w' t) (hr : answersReads (n + 1) w.reader) : answersReads n w'.reader := by
  rcases fetch_cases level w s with ⟨_, h'⟩ | ⟨_, _, _, h'⟩ | ⟨_, _, hm, h'⟩ <;> rw [h'] at h <;> cases h
  exact answersReads_of_memRead hm hr

/-! ### The end of a translation (rules R230, R237) -/

/-- A fetch that fails ends the walk. -/
theorem fetch_failed_terminal {level : Level} {w : Walk} {s t : State} (h : fetch level w s = .failed t) :
    t.walker.Terminal := by
  rcases fetch_cases level w s with ⟨_, h'⟩ | ⟨_, _, _, h'⟩ | ⟨_, _, _, h'⟩ <;> rw [h'] at h <;> cases h
  trivial

/-- A terminal walker has a result (rule R19). -/
theorem State.result_ne_none {s : State} (h : s.walker.Terminal) : s.result ≠ none := by
  rw [State.result]
  cases hw : s.walker with
  | resolved va tb pa steps => exact Option.some_ne_none _
  | failed va tb kind level raw err steps => exact Option.some_ne_none _
  | _ => rw [hw] at h; exact h.elim

/-- The loop reads at most once for each level it has to visit (rule R237). -/
theorem translateLevels_reads_length (levels : List Level) (w : Walk) (s : State) :
    (translateLevels levels w s).reads.length ≤ s.reads.length + levels.length := by
  induction levels generalizing w s with
  | nil => exact Nat.le_refl _
  | cons level below ih =>
    rw [translateLevels_cons]
    rcases hf : fetch level w s with _ | t | ⟨raw, w', t⟩ <;> simp only [List.length_cons]
    · exact Nat.le_add_right _ _
    · obtain ⟨e, ht⟩ := fetch_failed_reads hf
      simp [ht]
    · have ht : t.reads.length = s.reads.length + 1 := by simp [(fetch_fetched_trace hf).2]
      have hbelow := ih { w' with tbl := nextBase raw } t
      split
      · change t.reads.length ≤ _
        omega
      · split
        · change t.reads.length ≤ _
          omega
        · omega

/-- The loop down to PT ends the walk when every read is answered: an entry that leads down has a level below it, because
a present PT entry is a leaf. -/
theorem translateLevels_terminal {levels : List Level} {w : Walk} (s : State) (hl : levels.getLast? = some .pt)
    (hr : answersReads levels.length w.reader) : (translateLevels levels w s).walker.Terminal := by
  induction levels generalizing w s with
  | nil => cases hl
  | cons level below ih =>
    rw [translateLevels_cons]
    rcases hf : fetch level w s with _ | t | ⟨raw, w', t⟩ <;> simp only
    · exact absurd hf (fetch_ne_unanswered s hr)
    · exact fetch_failed_terminal hf
    · have hr' : answersReads below.length w'.reader := answersReads_of_fetched hf hr
      cases hp : present raw with
      | false => trivial
      | true =>
        cases ha : leafAddr level raw w'.va with
        | some pa => trivial
        | none =>
          cases below with
          | nil =>
            obtain rfl : level = .pt := Option.some.inj hl
            rw [leafAddr_pt hp] at ha
            cases ha
          | cons next rest => exact ih t hl hr'

/-- A translation writes only the walker and the history. -/
theorem translateFrom_frame (r : Request) (s : State) :
    translateFrom r s = { s with walker := (translateFrom r s).walker, reads := (translateFrom r s).reads } := by
  rw [translateFrom]
  split
  · rfl
  · obtain ⟨hmem, hpolicy, hinputs, hout⟩ := translateLevels_frame walkLevels r.walk (s.setReads [])
    generalize translateLevels walkLevels r.walk (s.setReads []) = t at *
    cases t
    cases hmem; cases hpolicy; cases hinputs; cases hout
    rfl

/-- A translation makes at most one read for each of the four levels. -/
theorem translateFrom_reads_length (r : Request) (s : State) :
    (translateFrom r s).reads.length ≤ Config.maxReads := by
  rw [translateFrom]
  split
  · exact Nat.zero_le _
  · exact translateLevels_reads_length walkLevels r.walk (s.setReads [])

/-- A translation whose reads are answered ends in a terminal state. -/
theorem translateFrom_terminal {r : Request} (s : State) (hr : answersReads Config.maxReads r.reader) :
    (translateFrom r s).walker.Terminal := by
  rw [translateFrom]
  split
  · trivial
  · exact translateLevels_terminal (s.setReads []) rfl hr

/-- `TRANSLATE` is accepted in `Start` with no request taken (rule R230). -/
theorem exec_translate_of_start {s : State} (va tb : Word) (reader : Reader) (h : s.walker = .start none) :
    exec (.translate va tb reader) s = .next (translateFrom ⟨va, tb, reader⟩ s) := by
  simp [exec, execTranslate, h]

/-- Settles O44: four answers serve the four levels, and the last of them leaves nothing to descend to. -/
theorem translateEndsWhenReadsAreAnswered : Obligations.TranslateEndsWhenReadsAreAnswered := by
  intro s va tb reader hstart hreader
  have hend : (translateFrom ⟨va, tb, reader⟩ s).walker.Terminal := translateFrom_terminal s hreader
  exact ⟨_, exec_translate_of_start va tb reader hstart, hend, State.result_ne_none hend,
    translateFrom_reads_length _ s, translateFrom_frame _ s⟩

end Sys2Proof.Machine
end

section
/-! The statements of the state: what a step can come to, the invariants of rule R36, the addresses of a sound state,
the reads of a step, and `TRANSLATE` repeated. -/

namespace Sys2Proof.Machine

open Sys2Proof

/-! ### What a step can come to (rules R201 to R208) -/

/-- What the walker's own step comes to from `s`, one constructor per way it can go. -/
inductive Advances (s : State) : State → Prop
  /-- There is no read to make, or the reader does not answer it (rules R201, R208, R303). -/
  | stays : Advances s s
  /-- The PML4 entry of the request taken is read (rule R202). -/
  | readsRoot {r : Request} (hw : s.walker = .start (some r)) : Advances s (fetchRoot r s)
  /-- The PML4 entry read before is executed (rule R203). -/
  | executesHeld {w : Walk} {raw : Word} {t : State} (hw : s.walker = .atPml4 w raw)
      (he : exec (decode .pml4 raw) s = .next t) : Advances s t
  /-- The read of a level below PML4 is answered with an error (rule R252). -/
  | readError {level : Level} {w : Walk} {t : State} (hw : s.walker = waitingAt level w) (hl : level ≠ .pml4)
      (hf : fetch level w s = .failed t) : Advances s t
  /-- The entry of a level below PML4 is read and executed (rules R204 to R206). -/
  | executesRead {level : Level} {w w' : Walk} {raw : Word} {u t : State} (hw : s.walker = waitingAt level w)
      (hl : level ≠ .pml4) (hf : fetch level w s = .fetched raw w' u)
      (he : exec (decode level raw) (u.setWalker (waitingAt level w')) = .next t) : Advances s t

/-- Below PML4 the walk at a level is the one whose read is still to come. -/
theorem walkAt_waitingAt {level : Level} (w : Walk) (hl : level ≠ .pml4) :
    walkAt level (waitingAt level w) = some w := by
  cases level with
  | pml4 => exact absurd rfl hl
  | _ => rfl

/-- Below PML4 the entry executed next is the one fetched in the same step. -/
theorem nextEntry_of_waitingAt {s : State} {level : Level} {w : Walk} (hw : s.walker = waitingAt level w)
    (hl : level ≠ .pml4) : nextEntry s = fetchAt level (waitingAt level) w s := by
  cases level with
  | pml4 => exact absurd rfl hl
  | _ => rw [nextEntry, hw]; rfl

/-- The walker's own step before the read of a level below PML4. -/
theorem advances_of_waitingAt {s t : State} {level : Level} {w : Walk} (hw : s.walker = waitingAt level w)
    (hl : level ≠ .pml4) (h : walkStep s = .next t) : Advances s t := by
  rw [walkStep, nextEntry_of_waitingAt hw hl] at h
  rcases fetchAt_cases level (waitingAt level) w s with ⟨_, h'⟩ | ⟨u, hf, h'⟩ | ⟨raw, w', u, hf, h'⟩ <;> rw [h'] at h
  · cases h
    exact .stays
  · cases h
    exact .readError hw hl hf
  · exact .executesRead hw hl hf h

/-- The walker's own step, position by position. -/
theorem advances_of_walkStep {s t : State} (h : walkStep s = .next t) : Advances s t := by
  cases hw : s.walker with
  | atPdpt w => exact advances_of_waitingAt (level := .pdpt) hw nofun h
  | atPd w => exact advances_of_waitingAt (level := .pd) hw nofun h
  | atPt w => exact advances_of_waitingAt (level := .pt) hw nofun h
  | atPml4 w raw =>
    rw [walkStep, nextEntry, hw] at h
    exact .executesHeld hw h
  | start taken =>
    rw [walkStep, nextEntry, hw] at h
    cases taken <;> cases h
    · exact .stays
    · exact .readsRoot hw
  | _ =>
    rw [walkStep, nextEntry, hw] at h
    cases h
    exact .stays

/-- What a step comes to from `s`, by the move of the host (rules R201, R304, R305, R306, R290). -/
inductive StepsTo (s : State) : State → Prop
  /-- The host makes no move. -/
  | own {rest : List HostInput} {t : State} (hi : HostIdle s rest) (ha : Advances (s.setInputs rest) t) : StepsTo s t
  | request {r : Request} {rest : List HostInput} (hi : s.inputs = .request r :: rest) :
      StepsTo s (presentRequest r (s.setInputs rest))
  | retire {rest : List HostInput} (hi : s.inputs = .retire :: rest) : StepsTo s (retire (s.setInputs rest))
  | reset {rest : List HostInput} (hi : s.inputs = .reset :: rest) : StepsTo s (resetBlock (s.setInputs rest))
  /-- Another agent writes or unmaps a byte. -/
  | memory {move : HostInput} {rest : List HostInput} (m : Memory) (hi : s.inputs = move :: rest)
      (hm : (∃ addr byte, move = .store addr byte) ∨ ∃ addr, move = .unmap addr) :
      StepsTo s ((s.setInputs rest).setMem m)

/-- A step, move by move. -/
theorem stepsTo_of_step {s t : State} (h : step s = .next t) : StepsTo s t := by
  have hidle : ∀ rest, HostIdle s rest → StepsTo s t := fun rest hi =>
    .own hi (advances_of_walkStep (step_of_hostIdle hi ▸ h))
  cases hi : s.inputs with
  | nil => exact hidle [] (.inl ⟨hi, rfl⟩)
  | cons move rest =>
    cases move with
    | idle => exact hidle rest (.inr hi)
    | request r => rw [step, hi] at h; cases h; exact .request hi
    | retire => rw [step, hi] at h; cases h; exact .retire hi
    | reset => rw [step, hi] at h; cases h; exact .reset hi
    | store addr byte => rw [step, hi] at h; cases h; exact .memory _ hi (.inl ⟨addr, byte, rfl⟩)
    | unmap addr => rw [step, hi] at h; cases h; exact .memory _ hi (.inr ⟨addr, rfl⟩)

/-- A request is accepted in `Start` with none taken, and has no effect anywhere else (rule R305). -/
theorem presentRequest_cases (r : Request) (s : State) :
    (s.walker = .start none ∧ presentRequest r s = acceptRequest r s) ∨
      (s.walker ≠ .start none ∧ presentRequest r s = s) := by
  by_cases h : s.walker = .start none
  · exact .inl ⟨h, presentRequest_of_start h⟩
  · refine .inr ⟨h, ?_⟩
    rw [presentRequest]
    split
    · next hw => exact absurd hw h
    · rfl

/-- Retire leaves a terminal state, and has no effect in any other (rule R306). -/
theorem retire_cases (s : State) :
    (s.walker.Terminal ∧ retire s = clearWalk s) ∨ (¬ s.walker.Terminal ∧ retire s = s) := by
  rw [retire]
  cases s.walker with
  | resolved va tb pa steps => exact .inl ⟨trivial, rfl⟩
  | failed va tb kind level raw err steps => exact .inl ⟨trivial, rfl⟩
  | _ => exact .inr ⟨id, rfl⟩

/-- An entry executed at its level: not present, a leaf, or leading to the level below (rules R210 to R219). -/
theorem exec_decode_cases {level : Level} {s t : State} {w : Walk} {raw : Word} (hw : walkAt level s.walker = some w)
    (he : exec (decode level raw) s = .next t) :
    (present raw = false ∧ t = failNotPresent level raw w s) ∨
    (∃ pa, leafAddr level raw w.va = some pa ∧ t = resolve pa w s) ∨
    (level ≠ .pt ∧ LeadsDown level raw ∧
      t = s.setWalker (waitingAt (levelBelow level) { w with tbl := nextBase raw })) := by
  rw [exec_decode_at raw hw] at he
  split at he
  · next hp =>
    cases he
    exact .inl ⟨hp, rfl⟩
  · next hp =>
    rw [Bool.not_eq_false] at hp
    split at he
    · next pa ha =>
      cases he
      exact .inr (.inl ⟨pa, ha, rfl⟩)
    · next ha =>
      cases he
      refine .inr (.inr ⟨?_, leadsDown_of_leafAddr hp ha, rfl⟩)
      rintro rfl
      rw [leafAddr_pt hp] at ha
      cases ha

/-! ### The invariants of rule R36 -/

/-- The entry of a level has been read in the walk and recorded, and is not tested yet. -/
def Walk.Recorded (w : Walk) (level : Level) (raw : Word) (reads : List ReadEvent) : Prop :=
  ∃ above, Descends w.va (levelsBefore level) (rootBase w.tb) above w.tbl ∧
    w.steps = above ++ [walkStepOf level w.tbl (indexAt level w.va) raw] ∧ reads = readsOf w.steps

/-- Below PML4, soundness before the read of a level is that of the walk. -/
theorem sound_waitingAt_iff {policy : NoncanonicalPolicy} {reads : List ReadEvent} {level : Level} {w : Walk}
    (hl : level ≠ .pml4) :
    (waitingAt level w).Sound policy reads ↔ Admitted policy w.va ∧ w.Before level reads := by
  cases level with
  | pml4 => exact absurd rfl hl
  | _ => rfl

/-- In `AtPML4` the entry held is the one recorded. -/
theorem Walk.recorded_of_sound_atPml4 {policy : NoncanonicalPolicy} {reads : List ReadEvent} {w : Walk} {raw : Word}
    (h : (Walker.atPml4 w raw).Sound policy reads) : Admitted policy w.va ∧ w.Recorded .pml4 raw reads := by
  obtain ⟨hva, htbl, hsteps, hreads⟩ := h
  exact ⟨hva, [], ⟨rfl, htbl⟩, hsteps, hreads⟩

/-- A fetch that gives an entry records it. -/
theorem Walk.Before.recorded {level : Level} {w w' : Walk} {s u : State} {raw : Word} (hb : w.Before level s.reads)
    (hf : fetch level w s = .fetched raw w' u) : w'.Recorded level raw u.reads := by
  obtain ⟨hd, hreads⟩ := hb
  obtain ⟨_, _, _, _, _, hva, htb, htbl⟩ := fetch_fetched_frame hf
  obtain ⟨hsteps, hread⟩ := fetch_fetched_trace hf
  rw [Walk.Recorded, hva, htb, htbl, hsteps, hread, hreads, readsOf_append]
  exact ⟨w.steps, hd, rfl, rfl⟩

/-- A fetch that an error ends leaves a sound failure (rule R252). -/
theorem Walk.Before.sound_of_failed {level : Level} {w : Walk} {s t : State} (hva : Admitted s.policy w.va)
    (hb : w.Before level s.reads) (hf : fetch level w s = .failed t) : t.Sound := by
  obtain ⟨hd, hreads⟩ := hb
  rcases fetch_cases level w s with ⟨_, h'⟩ | ⟨e, _, _, h'⟩ | ⟨_, _, _, h'⟩ <;> rw [h'] at hf <;> cases hf
  exact ⟨hva, w.tbl, hd, congrArg (· ++ _) hreads⟩

/-- The levels before the one below a table pointer. -/
theorem levelsBefore_levelBelow {level : Level} (hl : level ≠ .pt) :
    levelsBefore (levelBelow level) = levelsBefore level ++ [level] := by
  cases level with
  | pt => exact absurd rfl hl
  | _ => rfl

/-- No table pointer leads to PML4. -/
theorem levelBelow_ne_pml4 (level : Level) : levelBelow level ≠ .pml4 := by cases level <;> nofun

/-- A recorded entry executed at its level leaves a sound state. -/
theorem Walk.Recorded.sound_of_exec {level : Level} {s t : State} {w : Walk} {raw : Word}
    (hva : Admitted s.policy w.va) (hr : w.Recorded level raw s.reads) (hw : walkAt level s.walker = some w)
    (he : exec (decode level raw) s = .next t) : t.Sound := by
  obtain ⟨above, hd, hsteps, hreads⟩ := hr
  rcases exec_decode_cases hw he with ⟨hp, rfl⟩ | ⟨pa, ha, rfl⟩ | ⟨hl, hdown, rfl⟩
  · exact ⟨hva, above, w.tbl, hd, hsteps, hp, hreads⟩
  · exact ⟨hva, level, above, w.tbl, raw, hd, hsteps, ha, hreads⟩
  · refine (sound_waitingAt_iff (levelBelow_ne_pml4 level)).mpr ⟨hva, ?_, hreads⟩
    rw [levelsBefore_levelBelow hl, hsteps]
    exact hd.snoc hdown

/-- A request that is taken begins a sound walk. -/
theorem fetchRoot_sound {r : Request} {s : State} (hva : Admitted s.policy r.va) (hreads : s.reads = []) :
    (fetchRoot r s).Sound := by
  have hb : r.walk.Before .pml4 s.reads := ⟨⟨rfl, rfl⟩, hreads⟩
  rcases fetchRoot_cases r s with ⟨_, h⟩ | ⟨t, hf, h⟩ | ⟨raw, w, t, hf, h⟩ <;> rw [h]
  · exact ⟨hva, hreads⟩
  · exact hb.sound_of_failed hva hf
  · obtain ⟨_, hpolicy, _, _, _, hva', htb, htbl⟩ := fetch_fetched_frame hf
    obtain ⟨_, ⟨rfl, _⟩, hsteps, hread⟩ := hb.recorded hf
    refine ⟨?_, ?_, hsteps, hread⟩
    · rw [State.setWalker_policy, hpolicy, hva']
      exact hva
    · rw [htbl, htb]
      rfl

/-- A request is turned away under `reject` for an address that is not canonical, and admitted otherwise (rule R253). -/
theorem rejects_cases (s : State) (va : Word) :
    (rejects s va = true ∧ s.policy = .reject ∧ isCanonical va = false) ∨
      (rejects s va = false ∧ Admitted s.policy va) := by
  rw [rejects]
  cases hp : s.policy <;> cases hc : isCanonical va <;> simp [Admitted, hc]

/-- A request accepted in `Start` leaves a sound state. -/
theorem acceptRequest_sound (r : Request) (s : State) : (acceptRequest r s).Sound := by
  rw [acceptRequest]
  rcases rejects_cases s r.va with ⟨h, hp, hc⟩ | ⟨h, hva⟩
  · rw [if_pos h]
    exact ⟨hp, hc, rfl, rfl⟩
  · rw [h]
    exact fetchRoot_sound hva rfl

/-- The walker's own step keeps the invariants. -/
theorem Advances.sound {s t : State} (h : Advances s t) (hs : s.Sound) : t.Sound := by
  cases h with
  | stays => exact hs
  | readsRoot hw =>
    rw [State.Sound, hw] at hs
    obtain ⟨hva, hreads⟩ := hs
    exact fetchRoot_sound hva hreads
  | executesHeld hw he =>
    rw [State.Sound, hw] at hs
    obtain ⟨hva, hr⟩ := Walk.recorded_of_sound_atPml4 hs
    exact hr.sound_of_exec hva (by rw [hw]; rfl) he
  | readError hw hl hf =>
    rw [State.Sound, hw, sound_waitingAt_iff hl] at hs
    obtain ⟨hva, hb⟩ := hs
    exact hb.sound_of_failed hva hf
  | @executesRead level w w' raw u _ hw hl hf he =>
    rw [State.Sound, hw, sound_waitingAt_iff hl] at hs
    obtain ⟨hva, hb⟩ := hs
    obtain ⟨_, hpolicy, _, _, _, hva', _, _⟩ := fetch_fetched_frame hf
    have hadm : Admitted (u.setWalker (waitingAt level w')).policy w'.va := by
      rw [State.setWalker_policy, hpolicy, hva']
      exact hva
    exact (hb.recorded hf).sound_of_exec hadm (walkAt_waitingAt w' hl) he

/-- Settles O38: the moves of the host end, begin or leave the translation, and the walker's own step extends a sound
trace by one recorded entry. -/
theorem stepKeepsTheWalkSound : Obligations.StepKeepsTheWalkSound := by
  intro s t hs h
  cases stepsTo_of_step h with
  | own _ ha => exact ha.sound hs
  | @request r rest _ =>
    rcases presentRequest_cases r (s.setInputs rest) with ⟨_, h'⟩ | ⟨_, h'⟩ <;> rw [h']
    · exact acceptRequest_sound r _
    · exact hs
  | @retire rest _ =>
    rcases retire_cases (s.setInputs rest) with ⟨_, h'⟩ | ⟨_, h'⟩ <;> rw [h']
    · exact rfl
    · exact hs
  | reset => exact rfl
  | memory => exact hs

/-- Settles O40: `Start` with an empty history, and no byte listed. -/
theorem resetHasTheInvariants : Obligations.ResetHasTheInvariants := ⟨rfl, State.reset_mem_wf⟩

/-! ### The order of the positions (rules R24, R233) -/

/-- The position of a walk at a level, whatever the walk. -/
theorem walkerCode_waitingAt (level : Level) (w w' : Walk) :
    walkerCode (waitingAt level w) = walkerCode (waitingAt level w') := by cases level <;> rfl

/-- A terminal position is after that of every walk. -/
theorem walkerCode_lt_of_terminal {x y : Walker} (hx : ¬ x.Terminal) (hy : y.Terminal) :
    walkerCode x < walkerCode y := by
  have hlt : walkerCode x < 5 := by
    cases x with
    | resolved va tb pa steps => exact absurd trivial hx
    | failed va tb kind level raw err steps => exact absurd trivial hx
    | _ => simp [walkerCode]
  have hle : 5 ≤ walkerCode y := by
    cases y with
    | resolved va tb pa steps => simp [walkerCode]
    | failed va tb kind level raw err steps => simp [walkerCode]
    | _ => exact hy.elim
  exact Nat.lt_of_lt_of_le hlt hle

/-- A walk at a level is not over. -/
theorem not_terminal_of_walkAt {level : Level} {x : Walker} {w : Walk} (h : walkAt level x = some w) :
    ¬ x.Terminal := by
  cases x with
  | resolved va tb pa steps => cases level <;> cases h
  | failed va tb kind level' raw err steps => cases level <;> cases h
  | _ => exact id

/-- The level below a table pointer is the next position. -/
theorem walkerCode_lt_levelBelow {level : Level} {x : Walker} {w : Walk} (h : walkAt level x = some w)
    (hl : level ≠ .pt) (w' : Walk) : walkerCode x < walkerCode (waitingAt (levelBelow level) w') := by
  cases level with
  | pt => exact absurd rfl hl
  | _ =>
    cases x <;> cases h
    simp [walkerCode, waitingAt, levelBelow]

/-- An entry executed at its level moves the walker strictly forward. -/
theorem exec_decode_forward {level : Level} {s t : State} {w : Walk} {raw : Word} (hw : walkAt level s.walker = some w)
    (he : exec (decode level raw) s = .next t) : walkerCode s.walker < walkerCode t.walker := by
  rcases exec_decode_cases hw he with ⟨_, rfl⟩ | ⟨pa, _, rfl⟩ | ⟨hl, _, rfl⟩
  · exact walkerCode_lt_of_terminal (not_terminal_of_walkAt hw) trivial
  · exact walkerCode_lt_of_terminal (not_terminal_of_walkAt hw) trivial
  · exact walkerCode_lt_levelBelow hw hl _

/-- A request that is taken waits in `Start`, or its read moves the walker out of `Start`. -/
theorem fetchRoot_forward (r : Request) (s : State) :
    (fetchRoot r s).walker = .start (some r) ∨ 0 < walkerCode (fetchRoot r s).walker := by
  rcases fetchRoot_cases r s with ⟨_, h⟩ | ⟨t, hf, h⟩ | ⟨raw, w, t, _, h⟩ <;> rw [h]
  · exact .inl rfl
  · exact .inr (walkerCode_lt_of_terminal (x := .start none) id (fetch_failed_terminal hf))
  · exact .inr Nat.one_pos

/-- A request accepted waits in `Start`, or leaves it. -/
theorem acceptRequest_forward (r : Request) (s : State) :
    (acceptRequest r s).walker = .start (some r) ∨ 0 < walkerCode (acceptRequest r s).walker := by
  rw [acceptRequest]
  split
  · exact .inr (by simp [walkerCode])
  · exact fetchRoot_forward r _

/-- The walker's own step leaves the walker as it is or moves it strictly forward. -/
theorem Advances.forward {s t : State} (h : Advances s t) :
    t.walker = s.walker ∨ walkerCode s.walker < walkerCode t.walker := by
  cases h with
  | stays => exact .inl rfl
  | @readsRoot r hw => rw [hw]; exact fetchRoot_forward r s
  | executesHeld hw he => exact .inr (exec_decode_forward (by rw [hw]; rfl) he)
  | @readError level w _ hw hl hf =>
    have hlive : ¬ s.walker.Terminal := hw ▸ not_terminal_of_walkAt (walkAt_waitingAt w hl)
    exact .inr (walkerCode_lt_of_terminal hlive (fetch_failed_terminal hf))
  | @executesRead level w w' raw u t hw hl hf he =>
    have hlt := exec_decode_forward (walkAt_waitingAt w' hl) he
    rw [State.setWalker_walker, walkerCode_waitingAt level w' w, ← hw] at hlt
    exact .inr hlt

/-- Settles O34: a request leaves `Start` or waits in it, the walker's own step moves forward or waits, and a move on
memory leaves the walker. -/
theorem walkMovesOnlyForward : Obligations.WalkMovesOnlyForward := by
  intro s t h hretire hreset
  cases stepsTo_of_step h with
  | own _ ha => exact ha.forward.imp_right .inl
  | @request r rest _ =>
    rcases presentRequest_cases r (s.setInputs rest) with ⟨hw, h'⟩ | ⟨_, h'⟩ <;> rw [h']
    · rw [State.setInputs_walker] at hw
      rw [hw]
      exact .inr ((acceptRequest_forward r _).symm.imp_right fun h => ⟨rfl, r, h⟩)
    · exact .inl rfl
  | retire hi => exact absurd hi (hretire _)
  | reset hi => exact absurd hi (hreset _)
  | memory => exact .inl rfl

/-! ### The addresses of a sound state (rules R53, R58, R171, R189) -/

/-- A word masked with bits 51:12 is a table base (rule R171). -/
theorem isTableBase_and_physBaseMask (x : Word) : IsTableBase (x &&& physBaseMask) := by
  have hbit : ∀ i, ¬ (12 ≤ i ∧ i < 52) → (x &&& physBaseMask).getLsbD i = false := fun i hi => by
    rw [BitVec.getLsbD_and, physBaseMask_getLsbD, decide_eq_false hi, Bool.and_false]
  exact ⟨toNat_mod_of_getLsbD (n := 12) fun i hi => hbit i (by omega),
    toNat_lt_of_getLsbD (n := 52) fun i hi => hbit i (by omega)⟩

/-- The address of an entry of a table is an entry address, and the eight bytes of the entry lie in that table
(rules R53, R58, R173). -/
theorem isEntryAddr_entryAddr {base : Word} (h : IsTableBase base) (index : BitVec 9) :
    IsEntryAddr (entryAddr base index) ∧
      (entryAddr base index).toNat / 4096 = ((entryAddr base index).toNat + 7) / 4096 := by
  obtain ⟨hmod, hlt⟩ := h
  simp only [Config.tableBytes, Config.paWidth] at hmod hlt
  have hi := index.isLt
  have hnat : (entryAddr base index).toNat = base.toNat + index.toNat * 8 := by
    simp only [entryAddr, BitVec.toNat_add, BitVec.toNat_mul, BitVec.toNat_setWidth, BitVec.toNat_ofNat]
    omega
  simp only [IsEntryAddr, Config.entryBytes, Config.paWidth, hnat]
  omega

/-- Every table of a descent from a table base is one, and so is the table it leads to. -/
theorem Descends.isTableBase {va tbl last : Word} {levels : List Level} {steps : List WalkStep}
    (h : Descends va levels tbl steps last) (ht : IsTableBase tbl) :
    (∀ st ∈ steps, IsTableBase st.table) ∧ IsTableBase last := by
  induction levels generalizing tbl steps with
  | nil =>
    obtain ⟨rfl, rfl⟩ := h
    exact ⟨nofun, ht⟩
  | cons level levels ih =>
    obtain ⟨raw, rest, rfl, _, hd⟩ := h
    obtain ⟨hrest, hlast⟩ := ih hd (isTableBase_and_physBaseMask raw)
    exact ⟨List.forall_mem_cons.mpr ⟨ht, hrest⟩, hlast⟩

/-- The history of a sound state is the reads of a descent from a root table, with at most one read after them, in the
table that the descent leads to (rules R54, R257). -/
theorem Walker.Sound.reads_of_descent {policy : NoncanonicalPolicy} {reads : List ReadEvent} {x : Walker}
    (h : x.Sound policy reads) :
    ∃ va tb levels steps tbl, Descends va levels (rootBase tb) steps tbl ∧
      (reads = readsOf steps ∨ ∃ index answer, reads = readsOf steps ++ [⟨entryAddr tbl index, answer⟩]) := by
  cases x with
  | start taken =>
    have hreads : reads = [] := by
      cases taken with
      | none => exact h
      | some r => exact h.2
    exact ⟨0#64, 0#64, [], [], _, ⟨rfl, rfl⟩, .inl hreads⟩
  | atPml4 w raw =>
    obtain ⟨_, above, hd, hsteps, hreads⟩ := Walk.recorded_of_sound_atPml4 h
    rw [hsteps, readsOf_append] at hreads
    exact ⟨_, _, _, _, _, hd, .inr ⟨_, _, hreads⟩⟩
  | resolved va tb pa steps =>
    obtain ⟨_, level, above, tbl, raw, hd, hsteps, _, hreads⟩ := h
    rw [hsteps, readsOf_append] at hreads
    exact ⟨_, _, _, _, _, hd, .inr ⟨_, _, hreads⟩⟩
  | failed va tb kind level raw err steps =>
    simp only [Walker.Sound] at h
    split at h
    · obtain ⟨_, above, tbl, hd, hsteps, _, hreads⟩ := h
      rw [hsteps, readsOf_append] at hreads
      exact ⟨_, _, _, _, _, hd, .inr ⟨_, _, hreads⟩⟩
    · obtain ⟨_, tbl, hd, hreads⟩ := h
      exact ⟨_, _, _, _, _, hd, .inr ⟨_, _, hreads⟩⟩
    · obtain ⟨_, _, _, hreads⟩ := h
      exact ⟨0#64, 0#64, [], [], _, ⟨rfl, rfl⟩, .inl hreads⟩
    · exact h.elim
  | _ =>
    obtain ⟨_, hd, hreads⟩ := h
    exact ⟨_, _, _, _, _, hd, .inl hreads⟩

/-- In a sound state every read is of an entry of a table. -/
theorem Walker.Sound.read_in_table {policy : NoncanonicalPolicy} {reads : List ReadEvent} {x : Walker}
    (h : x.Sound policy reads) {ev : ReadEvent} (hev : ev ∈ reads) :
    ∃ base index, IsTableBase base ∧ ev.addr = entryAddr base index := by
  obtain ⟨va, tb, levels, steps, tbl, hd, hreads⟩ := h.reads_of_descent
  obtain ⟨hsteps, htbl⟩ := hd.isTableBase (isTableBase_and_physBaseMask tb)
  have hof : ev ∈ readsOf steps → ∃ base index, IsTableBase base ∧ ev.addr = entryAddr base index := by
    intro hmem
    obtain ⟨st, hst, rfl⟩ := List.mem_map.mp hmem
    exact ⟨_, _, hsteps st hst, rfl⟩
  rcases hreads with rfl | ⟨index, answer, rfl⟩
  · exact hof hev
  · rcases List.mem_append.mp hev with hev | hev
    · exact hof hev
    · obtain rfl := List.mem_singleton.mp hev
      exact ⟨_, _, htbl, rfl⟩

/-- In a sound state the table of the walk is a table base. -/
theorem Walker.Sound.table_of_walkAt {policy : NoncanonicalPolicy} {reads : List ReadEvent} {x : Walker}
    (h : x.Sound policy reads) {level : Level} {w : Walk} (hw : walkAt level x = some w) : IsTableBase w.tbl := by
  have hroot : ∀ tb, IsTableBase (rootBase tb) := isTableBase_and_physBaseMask
  cases level with
  | pml4 =>
    cases x <;> cases hw
    obtain ⟨_, htbl, _, _⟩ := h
    exact htbl ▸ hroot w.tb
  | _ =>
    cases x <;> cases hw
    obtain ⟨_, hd, _⟩ := h
    exact (hd.isTableBase (hroot w.tb)).2

/-- A base with ones only in bits `n` to 51, plus an offset of `n` bits, is below `2^52`: no bit is in both
(rule R187). -/
theorem toNat_add_offset_lt {n : Nat} {base : Word} (hb : ∀ i, base.getLsbD i = true → n ≤ i ∧ i < 52)
    (hn : n ≤ 52) (offset : BitVec n) : (base + offset.setWidth 64).toNat < 2 ^ 52 := by
  have hdisj : base &&& offset.setWidth 64 = 0#64 := and_eq_zero_of_disjoint fun i _ hi => by
    rw [BitVec.getLsbD_setWidth, BitVec.getLsbD_of_ge offset i (hb i hi).1, Bool.and_false]
  rw [BitVec.add_eq_or_of_and_eq_zero _ _ hdisj]
  refine toNat_lt_of_getLsbD fun i hi => ?_
  have hbase : base.getLsbD i = false := Bool.eq_false_iff.mpr fun h => absurd (hb i h).2 (Nat.not_lt.mpr hi)
  have hoffset : offset.getLsbD i = false := BitVec.getLsbD_of_ge offset i (Nat.le_trans hn hi)
  rw [BitVec.getLsbD_or, BitVec.getLsbD_setWidth, hbase, hoffset, Bool.and_false, Bool.or_false]

/-- The address of a leaf is below `2^52` (rule R189). -/
theorem leafAddr_lt {level : Level} {raw va pa : Word} (h : leafAddr level raw va = some pa) : pa.toNat < 2 ^ 52 := by
  rw [leafAddr] at h
  split at h <;> cases h
  · exact toNat_add_offset_lt (fun i hi => by simp_all [base1g_getLsbD]) (by omega) _
  · exact toNat_add_offset_lt (fun i hi => by simp_all [base2m_getLsbD]) (by omega) _
  · exact toNat_add_offset_lt (fun i hi => by simp_all [physicalBase_getLsbD]) (by omega) _

/-- Settles O41: every read of a sound state is in a table of its descent, and every table comes from the mask. -/
theorem soundAddressesAreAlignedAndBounded : Obligations.SoundAddressesAreAlignedAndBounded := by
  intro s hs
  refine ⟨fun ev hev => ?_, fun level w hw => hs.table_of_walkAt hw, fun va tb pa steps hw => ?_⟩
  · obtain ⟨base, index, hbase, haddr⟩ := hs.read_in_table hev
    rw [haddr]
    exact isEntryAddr_entryAddr hbase index
  · rw [State.Sound, hw] at hs
    obtain ⟨_, level, above, tbl, raw, _, _, ha, _⟩ := hs
    exact leafAddr_lt ha

/-! ### The reads of a step (rules R60, R61) -/

/-- Before the read of a level below PML4 the walk gives the address of the next entry. -/
theorem fetchAddr_of_waitingAt {s : State} {level : Level} {w : Walk} (hw : s.walker = waitingAt level w)
    (hl : level ≠ .pml4) : s.fetchAddr = some (entryAddr w.tbl (indexAt level w.va)) := by
  rw [State.fetchAddr, hw]
  cases level with
  | pml4 => exact absurd rfl hl
  | _ => rfl

/-- A request that is taken makes at most the read of its PML4 entry. -/
theorem fetchRoot_reads (r : Request) (s : State) :
    (fetchRoot r s).reads = s.reads ∨
      ∃ answer, (fetchRoot r s).reads = s.reads ++ [⟨entryAddr (rootBase r.tb) (pml4Index r.va), answer⟩] := by
  rcases fetchRoot_cases r s with ⟨_, h⟩ | ⟨t, hf, h⟩ | ⟨raw, w, t, hf, h⟩ <;> rw [h]
  · exact .inl rfl
  · obtain ⟨e, he⟩ := fetch_failed_reads hf
    exact .inr ⟨.err e, he⟩
  · exact .inr ⟨.ok raw, (fetch_fetched_trace hf).2⟩

/-- The walker's own step makes at most one read, of the entry to be fetched next. -/
theorem Advances.reads {s t : State} (h : Advances s t) :
    t.reads = s.reads ∨ ∃ addr answer, s.fetchAddr = some addr ∧ t.reads = s.reads ++ [⟨addr, answer⟩] := by
  cases h with
  | stays => exact .inl rfl
  | @readsRoot r hw =>
    have haddr : s.fetchAddr = some (entryAddr (rootBase r.tb) (pml4Index r.va)) := by rw [State.fetchAddr, hw]
    exact (fetchRoot_reads r s).imp_right fun ⟨answer, h⟩ => ⟨_, answer, haddr, h⟩
  | executesHeld hw he => exact .inl (exec_decode_reads (by rw [hw]; rfl) he)
  | readError hw hl hf =>
    obtain ⟨e, he⟩ := fetch_failed_reads hf
    exact .inr ⟨_, .err e, fetchAddr_of_waitingAt hw hl, he⟩
  | @executesRead level w w' raw u t hw hl hf he =>
    have hu : t.reads = (u.setWalker (waitingAt level w')).reads := exec_decode_reads (walkAt_waitingAt w' hl) he
    exact .inr ⟨_, .ok raw, fetchAddr_of_waitingAt hw hl, hu.trans (fetch_fetched_trace hf).2⟩

/-- Settles O42: the walker's own step reads the entry to be fetched next, a request accepted its PML4 entry, and no
other move reads. -/
theorem eachStepReadsAtMostOnce : Obligations.EachStepReadsAtMostOnce := by
  intro s t h
  refine ⟨fun rest hi => ?_, fun r rest hi hw => ?_, fun move rest hi hmove hreq => ?_⟩
  · rw [step_of_hostIdle hi] at h
    exact (advances_of_walkStep h).reads
  · rw [step, hi] at h
    cases h
    rw [presentRequest_of_start (s := s.setInputs rest) hw]
    exact acceptRequest_reads r _
  · cases stepsTo_of_step h with
    | own hi' _ =>
      rcases hi' with ⟨hi', _⟩ | hi' <;> rw [hi] at hi' <;> cases hi'
      exact absurd rfl hmove
    | @request r rest' hi' =>
      rw [hi] at hi'
      cases hi'
      rcases presentRequest_cases r (s.setInputs rest) with ⟨hw, _⟩ | ⟨_, h'⟩
      · exact absurd hw (hreq r rfl)
      · exact .inl (by rw [h']; rfl)
    | @retire rest' _ =>
      rcases retire_cases (s.setInputs rest') with ⟨_, h'⟩ | ⟨_, h'⟩ <;> rw [h']
      · exact .inr rfl
      · exact .inl rfl
    | reset => exact .inr rfl
    | memory => exact .inl rfl

/-! ### `TRANSLATE` repeated (rules R234, R235) -/

/-- The loop down to PT does not depend on the walker it begins from: whatever it comes to, it writes. -/
theorem translateLevels_setWalker {levels : List Level} (w : Walk) (s : State) (x : Walker)
    (hl : levels.getLast? = some .pt) : translateLevels levels w (s.setWalker x) = translateLevels levels w s := by
  induction levels generalizing w s with
  | nil => cases hl
  | cons level below ih =>
    rw [translateLevels_cons, translateLevels_cons, fetch_setWalker]
    rcases fetch level w s with _ | t | ⟨raw, w', t⟩ <;> simp only
    · rfl
    · cases hp : present raw with
      | false => rfl
      | true =>
        cases ha : leafAddr level raw w'.va with
        | some pa => rfl
        | none =>
          cases below with
          | nil =>
            obtain rfl : level = .pt := Option.some.inj hl
            rw [leafAddr_pt hp] at ha
            cases ha
          | cons next rest => exact ih _ t hl

/-- A translation depends on the walker and the history it begins from in nothing: it begins with an empty history. -/
theorem translateFrom_clearWalk (r : Request) (s : State) : translateFrom r (clearWalk s) = translateFrom r s := by
  have hloop := translateLevels_setWalker (levels := walkLevels) r.walk (s.setReads []) (.start none) rfl
  rw [translateFrom, translateFrom]
  exact congrArg (fun u => if rejects s r.va then failInvalidInput r.va r.tb (s.setReads []) else u) hloop

/-- Leaving a translation gives the state that leaving it before gives. -/
theorem clearWalk_translateFrom (r : Request) (s : State) : clearWalk (translateFrom r s) = clearWalk s := by
  rw [translateFrom_frame]
  rfl

/-- Settles O50: the first translation ends, and from its end Retire leads to a `Start` that differs from the one before
it in nothing a translation depends on. -/
theorem repeatedTranslateIsIdentical : Obligations.RepeatedTranslateIsIdentical := by
  intro s t va tb reader hstart hreader h
  rw [exec_translate_of_start va tb reader hstart] at h
  cases h
  have hend : (translateFrom ⟨va, tb, reader⟩ s).walker.Terminal := translateFrom_terminal s hreader
  rcases retire_cases (translateFrom ⟨va, tb, reader⟩ s) with ⟨_, hr⟩ | ⟨hlive, _⟩
  · rw [hr, exec_translate_of_start va tb reader rfl, clearWalk_translateFrom, translateFrom_clearWalk]
  · exact absurd hend hlive

/-! ### Results, reset and the placed entry -/

/-- A walk that is not over has no result (rule R232). -/
theorem State.result_eq_none {s : State} (h : ¬ s.walker.Terminal) : s.result = none := by
  rw [State.result]
  cases hw : s.walker with
  | resolved va tb pa steps => rw [hw] at h; exact absurd trivial h
  | failed va tb kind level raw err steps => rw [hw] at h; exact absurd trivial h
  | _ => rfl

/-- Settles O30: the two terminal states give their registers, and the others nothing. -/
theorem resultIsTheTerminalRegisters : Obligations.ResultIsTheTerminalRegisters := by
  intro s
  refine ⟨fun va tb pa steps hw => ?_, fun va tb kind level raw err steps hw => ?_, State.result_eq_none⟩
  · rw [State.result, hw]
  · rw [State.result, hw]

/-- Settles O31: reset clears the walk and the output of the state whose move is consumed. -/
theorem resetAbandonsTheTranslation : Obligations.ResetAbandonsTheTranslation := by
  intro s rest hi
  rw [step, hi]
  rfl

/-- A 64-bit value placed in empty memory reads back (rule R52). -/
theorem Memory.readQword_placeQword_nil (v : Word) : (Memory.placeQword [] 0#64 v).readQword 0#64 = some v :=
  congrArg some (qwordOfBytes_bytes v)

/-- A request whose PML4 entry is readable in memory takes the walker to `AtPML4` with that entry (rule R202). -/
theorem fetchRoot_of_readQword {r : Request} {s : State} {missing : HostReadError} {v : Word}
    (hr : r.reader = .memory missing)
    (hv : s.mem.readQword (entryAddr (rootBase r.tb) (pml4Index r.va)) = some v) :
    ∃ w, (fetchRoot r s).walker = .atPml4 w v := by
  have hread : memRead r.walk.reader s.mem (entryAddr r.walk.tbl (indexAt .pml4 r.walk.va)) =
      some (.ok v, .memory missing) := by
    simp [memRead, indexAt, hr, hv]
  rcases fetch_cases .pml4 r.walk s with ⟨hm, _⟩ | ⟨_, _, hm, _⟩ | ⟨_, _, hm, hf⟩ <;> rw [hread] at hm <;> cases hm
  rw [fetchRoot, hf]
  exact ⟨_, rfl⟩

/-- With an entry placed, the state after reset holds it in `AtPML4`: the request for address 0 has been taken, with the
entry in memory at the address of its read. -/
theorem withFetchWord_reset_walker (nbits w : Nat) :
    ∃ walk, (State.reset.withFetchWord nbits w).walker = .atPml4 walk (entryOfTableWord nbits w) :=
  fetchRoot_of_readQword (r := ⟨0#64, 0#64, .memory ⟨0⟩⟩)
    (s := State.reset.setMem (Memory.placeQword [] 0#64 (entryOfTableWord nbits w))) rfl
    (Memory.readQword_placeQword_nil (entryOfTableWord nbits w))

/-- With an entry placed, the host of the state after reset makes no move. -/
theorem withFetchWord_reset_inputs (nbits w : Nat) : (State.reset.withFetchWord nbits w).inputs = [] := rfl

/-- Settles O51: the walker holds the placed entry in `AtPML4`, and its own step there executes it. -/
theorem placedEntryIsExecutedNext : Obligations.PlacedEntryIsExecutedNext := by
  intro nbits w
  obtain ⟨walk, hw⟩ := withFetchWord_reset_walker nbits w
  rw [step, withFetchWord_reset_inputs]
  simp only
  rw [walkStep, nextEntry, hw]

end Sys2Proof.Machine
end

section
/-! The statements of memory: the decoder on the bytes of an entry, the reader over memory, what an operation and a step
leave in memory, and the steps whose read fails or is not answered. -/

namespace Sys2Proof.Machine

open Sys2Proof

/-! ### The bytes of an entry (rules R52, R80, R100) -/

/-- What has an encoding is an entry of some kind, at the level of that kind (rules R100, R101). -/
theorem eq_instr_of_encode {i : Instr} {level : Level} {raw : Word} (h : encode i = some (level, raw)) :
    ∃ k : EntryKind, i = k.instr raw ∧ level = k.level := by
  cases i <;> cases h
  case pml4eNp => exact ⟨.pml4eNp, rfl, rfl⟩
  case pml4eTable => exact ⟨.pml4eTable, rfl, rfl⟩
  case pdpteNp => exact ⟨.pdpteNp, rfl, rfl⟩
  case pdptePage1g => exact ⟨.pdptePage1g, rfl, rfl⟩
  case pdpteTable => exact ⟨.pdpteTable, rfl, rfl⟩
  case pdeNp => exact ⟨.pdeNp, rfl, rfl⟩
  case pdePage2m => exact ⟨.pdePage2m, rfl, rfl⟩
  case pdeTable => exact ⟨.pdeTable, rfl, rfl⟩
  case pteNp => exact ⟨.pteNp, rfl, rfl⟩
  case ptePage4k => exact ⟨.ptePage4k, rfl, rfl⟩

/-- An entry is well formed when it has the bits of its kind. -/
theorem wellFormed_instr (k : EntryKind) (raw : Word) : (k.instr raw).wellFormed = k.admits raw := by
  cases k <;> rfl

/-- An entry with the bits of a kind decodes, at the level of the kind, to that kind: the two bits that the row of rule
R100 tests are those that the decoder tests. -/
theorem decode_of_admits {k : EntryKind} {raw : Word} (h : k.admits raw = true) :
    decode k.level raw = k.instr raw := by
  have hbits : raw &&& k.mask = k.matchBits := beq_iff_eq.mp h
  cases k with
  | pml4eNp | pdpteNp | pdeNp | pteNp =>
    have hp := (and_one_eq_zero_iff raw).mp hbits
    rw [EntryKind.level, decode_eq, hp]
    rfl
  | pml4eTable | ptePage4k =>
    have hp := (and_one_eq_one_iff raw).mp hbits
    rw [EntryKind.level, decode_eq, hp]
    rfl
  | pdptePage1g | pdePage2m =>
    obtain ⟨hp, hs⟩ := (and_huge_eq_iff raw).mp hbits
    rw [EntryKind.level, decode_eq, hp, hs]
    rfl
  | pdpteTable | pdeTable =>
    obtain ⟨hp, hs⟩ := (and_huge_eq_one_iff raw).mp hbits
    rw [EntryKind.level, decode_eq, hp, hs]
    rfl

/-- The decoder on the eight bytes of a 64-bit value decodes that value and leaves the bytes after it. -/
theorem decodeBytes_bytesOfQword (level : Level) (v : Word) (rest : List Byte) :
    decodeBytes level (bytesOfQword v ++ rest) = .entry (decode level v) rest :=
  congrArg (fun x => Decoded.entry (decode level x) rest) (qwordOfBytes_bytes v)

/-- Settles O1: the bytes give the word back, and the word has the bits of its kind. -/
theorem decodeOfEncodedBytesIsTheEntry : Obligations.DecodeOfEncodedBytesIsTheEntry := by
  intro i level raw rest hwf he
  obtain ⟨k, rfl, rfl⟩ := eq_instr_of_encode he
  rw [wellFormed_instr] at hwf
  rw [decodeBytes_bytesOfQword, decode_of_admits hwf]

/-! ### A read of memory (rules R51, R52, R67) -/

/-- Appended bits are the low ones of a number. -/
theorem toNat_append_eq_add {n m : Nat} (x : BitVec n) (y : BitVec m) :
    (x ++ y).toNat = x.toNat * 2 ^ m + y.toNat := by
  rw [BitVec.toNat_append, ← Nat.shiftLeft_add_eq_or_of_lt y.isLt, Nat.shiftLeft_eq]

/-- The value of eight bytes is their little-endian sum (rule R52). -/
theorem qwordOfBytes_toNat (b0 b1 b2 b3 b4 b5 b6 b7 : Byte) :
    (qwordOfBytes b0 b1 b2 b3 b4 b5 b6 b7).toNat =
      b0.toNat + b1.toNat * 2 ^ 8 + b2.toNat * 2 ^ 16 + b3.toNat * 2 ^ 24 + b4.toNat * 2 ^ 32 +
        b5.toNat * 2 ^ 40 + b6.toNat * 2 ^ 48 + b7.toNat * 2 ^ 56 := by
  simp only [qwordOfBytes, toNat_append_eq_add]
  omega

/-- A value is read only where each of its eight bytes is readable. -/
theorem Memory.read_ne_none_of_readQword {m : Memory} {addr v : Word} (h : m.readQword addr = some v) {i : Nat}
    (hi : i < 8) : m.read (addr.toNat + i) ≠ none := by
  rw [Memory.readQword] at h
  split at h
  · interval_cases i <;> simp_all
  · cases h

/-- Settles O6: the appended bytes as a sum, and the reader case by case. -/
theorem qwordReadIsLittleEndianSum : Obligations.QwordReadIsLittleEndianSum := by
  refine ⟨?_, fun m addr i hi hnone => ?_, fun missing m addr => ⟨fun v hv => ?_, fun hnone => ?_⟩,
    fun m addr => ⟨rfl, fun _ _ => rfl⟩⟩
  · intro m addr b0 b1 b2 b3 b4 b5 b6 b7 h0 h1 h2 h3 h4 h5 h6 h7
    refine ⟨qwordOfBytes b0 b1 b2 b3 b4 b5 b6 b7, ?_, qwordOfBytes_toNat b0 b1 b2 b3 b4 b5 b6 b7⟩
    rw [Memory.readQword, h0, h1, h2, h3, h4, h5, h6, h7]
  · exact Option.eq_none_iff_forall_ne_some.mpr fun v hv => Memory.read_ne_none_of_readQword hv hi hnone
  · rw [memRead, hv]
  · rw [memRead, hnone]

/-! ### What leaves memory as it was (rules R57, R66) -/

/-- An entry that is executed is executed in a walk at its level, with its effect. -/
theorem eq_effect_of_atLevel {level : Level} {s t : State} {effect : Walk → State}
    (h : atLevel level s effect = .next t) : ∃ w, walkAt level s.walker = some w ∧ t = effect w := by
  cases hw : walkAt level s.walker with
  | none => rw [atLevel_out_of_place effect hw] at h; cases h
  | some w => rw [atLevel_of_walkAt effect hw] at h; cases h; exact ⟨w, rfl, rfl⟩

/-- `TRANSLATE` leaves memory as it was. -/
theorem execTranslate_mem {va tb : Word} {reader : Reader} {s t : State}
    (h : execTranslate va tb reader s = .next t) : t.mem = s.mem := by
  rw [execTranslate] at h
  split at h <;> cases h
  · rw [translateFrom_frame]
  · rfl

/-- An operation leaves memory as it was: an entry kind writes the walker, a function its output. -/
theorem exec_mem {i : Instr} {s t : State} (h : exec i s = .next t) : t.mem = s.mem := by
  cases i with
  | translate va tb reader => exact execTranslate_mem h
  | pml4eNp raw | pml4eTable raw | pdpteNp raw | pdptePage1g raw | pdpteTable raw | pdeNp raw | pdePage2m raw
  | pdeTable raw | pteNp raw | ptePage4k raw =>
    obtain ⟨w, _, rfl⟩ := eq_effect_of_atLevel h
    rfl
  | _ => cases h; rfl

/-- Settles O35: equal memories read alike. -/
theorem noOperationWritesMemory : Obligations.NoOperationWritesMemory := by
  intro i s t h
  have hmem : t.mem = s.mem := exec_mem h
  exact ⟨fun a => by rw [hmem], hmem⟩

/-- An entry executed at its level leaves the policy as it was. -/
theorem exec_decode_policy {level : Level} {s t : State} {w : Walk} {raw : Word} (hw : walkAt level s.walker = some w)
    (he : exec (decode level raw) s = .next t) : t.policy = s.policy := by
  rcases exec_decode_cases hw he with ⟨_, rfl⟩ | ⟨_, _, rfl⟩ | ⟨_, _, rfl⟩ <;> rfl

/-- The walker's own step leaves memory and the policy as they were. -/
theorem Advances.mem_policy {s t : State} (h : Advances s t) : t.mem = s.mem ∧ t.policy = s.policy := by
  cases h with
  | stays => exact ⟨rfl, rfl⟩
  | @readsRoot r _ =>
    obtain ⟨hmem, hpolicy, _, _⟩ := fetchRoot_frame r s
    exact ⟨hmem, hpolicy⟩
  | executesHeld hw he => exact ⟨exec_mem he, exec_decode_policy (by rw [hw]; rfl) he⟩
  | readError _ _ hf =>
    obtain ⟨hmem, hpolicy, _, _⟩ := fetch_failed_frame hf
    exact ⟨hmem, hpolicy⟩
  | @executesRead _ _ w' _ _ _ _ hl hf he =>
    obtain ⟨hmem, hpolicy, _⟩ := fetch_fetched_frame hf
    exact ⟨(exec_mem he).trans hmem, (exec_decode_policy (walkAt_waitingAt w' hl) he).trans hpolicy⟩

/-- A step leaves the policy as it was, and memory too unless the move is another agent's (rules R57, R66). -/
theorem StepsTo.policy_mem {s t : State} (h : StepsTo s t) :
    t.policy = s.policy ∧
      (t.mem = s.mem ∨ (∃ addr byte rest, s.inputs = .store addr byte :: rest) ∨
        ∃ addr rest, s.inputs = .unmap addr :: rest) := by
  cases h with
  | own _ ha =>
    obtain ⟨hmem, hpolicy⟩ := ha.mem_policy
    exact ⟨hpolicy, .inl hmem⟩
  | @request r rest _ =>
    obtain ⟨hmem, hpolicy, _, _⟩ := presentRequest_frame r (s.setInputs rest)
    exact ⟨hpolicy, .inl hmem⟩
  | @retire rest _ =>
    obtain ⟨hmem, hpolicy, _, _⟩ := retire_frame (s.setInputs rest)
    exact ⟨hpolicy, .inl hmem⟩
  | reset => exact ⟨rfl, .inl rfl⟩
  | @memory move rest _ hi hm =>
    refine ⟨rfl, .inr (hm.imp ?_ ?_)⟩
    · rintro ⟨addr, byte, rfl⟩
      exact ⟨addr, byte, rest, hi⟩
    · rintro ⟨addr, rfl⟩
      exact ⟨addr, rest, hi⟩

/-- The step in which another agent writes a byte writes that byte alone. -/
theorem step_store {s : State} {addr : Word} {byte : Byte} {rest : List HostInput}
    (hi : s.inputs = .store addr byte :: rest) :
    step s = .next ((s.setInputs rest).setMem (s.mem.write addr.toNat byte)) := by
  rw [step, hi]

/-- The step in which a byte becomes inaccessible takes that byte alone. -/
theorem step_unmap {s : State} {addr : Word} {rest : List HostInput} (hi : s.inputs = .unmap addr :: rest) :
    step s = .next ((s.setInputs rest).setMem (s.mem.erase addr.toNat)) := by
  rw [step, hi]

/-- Settles O37: a step of the block or of the host leaves memory, and one of another agent writes or erases at its
address. -/
theorem stepWritesMemoryOnlyForOtherAgents : Obligations.StepWritesMemoryOnlyForOtherAgents := by
  intro s t h
  obtain ⟨hpolicy, hmem⟩ := (stepsTo_of_step h).policy_mem
  refine ⟨hpolicy, fun hstore hunmap a => ?_, fun addr byte rest hi => ?_, fun addr rest hi => ?_⟩
  · rcases hmem with hmem | ⟨addr, byte, rest, hi⟩ | ⟨addr, rest, hi⟩
    · rw [hmem]
    · exact absurd hi (hstore addr byte rest)
    · exact absurd hi (hunmap addr rest)
  · rw [step_store hi] at h
    cases h
    exact ⟨rfl, rfl, fun _ ha => Memory.read_write_other byte ha, Memory.read_write_same addr.toNat byte⟩
  · rw [step_unmap hi] at h
    cases h
    exact ⟨rfl, rfl, fun _ ha => Memory.read_erase_other ha, Memory.read_erase_same addr.toNat⟩

/-- Settles O39: the canonical form is kept by a write and by an erasure, and memory stays in every other step. -/
theorem stepKeepsMemoryCanonical : Obligations.StepKeepsMemoryCanonical := by
  intro s t hwf h
  obtain ⟨_, hmem | ⟨addr, byte, rest, hi⟩ | ⟨addr, rest, hi⟩⟩ := (stepsTo_of_step h).policy_mem
  · rw [hmem]
    exact hwf
  · rw [step_store hi] at h
    cases h
    exact Memory.wf_write byte addr.isLt hwf
  · rw [step_unmap hi] at h
    cases h
    exact Memory.wf_erase addr.toNat hwf

/-! ### Reads that fail or are not answered (rules R51, R252, R303) -/

/-- Before the read of a level below PML4, an error of the reader is the failure of that level (rules R207, R252). -/
theorem step_of_readError {s : State} {rest : List HostInput} {level : Level} {w : Walk} {e : HostReadError}
    {reader : Reader} (hi : HostIdle s rest) (hw : s.walker = waitingAt level w) (hl : level ≠ .pml4)
    (hm : memRead w.reader s.mem (entryAddr w.tbl (indexAt level w.va)) = some (.err e, reader)) :
    step s = .next { s with
      inputs := rest
      reads := s.reads ++ [⟨entryAddr w.tbl (indexAt level w.va), .err e⟩]
      walker := .failed w.va w.tb .readFailure (some level) none (some e) w.steps } := by
  rw [step_of_hostIdle hi, walkStep, nextEntry_of_waitingAt (s := s.setInputs rest) hw hl, fetchAt, fetch,
    State.setInputs_mem, hm]
  rfl

/-- Settles O25: the three levels below PML4. -/
theorem readErrorEndsTheWalk : Obligations.ReadErrorEndsTheWalk := by
  intro s rest w e reader hi
  exact ⟨fun hw => step_of_readError (level := .pdpt) hi hw nofun,
    fun hw => step_of_readError (level := .pd) hi hw nofun, fun hw => step_of_readError (level := .pt) hi hw nofun⟩

/-- Before the read of a level below PML4 that is not answered, the walker stays (rule R303). -/
theorem step_of_unanswered {s : State} {rest : List HostInput} {level : Level} {w : Walk} (hi : HostIdle s rest)
    (hw : s.walker = waitingAt level w) (hl : level ≠ .pml4)
    (hm : memRead w.reader s.mem (entryAddr w.tbl (indexAt level w.va)) = none) :
    step s = .next { s with inputs := rest } ∧ s.result = none := by
  refine ⟨?_, State.result_eq_none (hw ▸ not_terminal_of_walkAt (walkAt_waitingAt w hl))⟩
  rw [step_of_hostIdle hi, walkStep, nextEntry_of_waitingAt (s := s.setInputs rest) hw hl, fetchAt, fetch,
    State.setInputs_mem, hm]
  rfl

/-- While the read of its PML4 entry is not answered, a request taken stays in `Start` (rule R303). -/
theorem step_of_unanswered_root {s : State} {rest : List HostInput} {r : Request} (hi : HostIdle s rest)
    (hw : s.walker = .start (some r))
    (hm : memRead r.reader s.mem (entryAddr (rootBase r.tb) (pml4Index r.va)) = none) :
    step s = .next { s with inputs := rest } ∧ s.result = none := by
  refine ⟨?_, State.result_eq_none (by rw [hw]; exact id)⟩
  have hstay : fetchRoot r (s.setInputs rest) = (s.setInputs rest).setWalker (.start (some r)) := by
    rw [fetchRoot, fetch, Request.walk_reader, State.setInputs_mem, Request.walk_tbl, Request.walk_va, indexAt, hm]
  rw [step_of_hostIdle hi, walkStep, nextEntry, State.setInputs_walker, hw]
  simp only
  rw [hstay, ← hw]
  rfl

/-- Settles O26: the request taken in `Start`, and the three levels below PML4. -/
theorem unansweredReadLeavesTheWalker : Obligations.UnansweredReadLeavesTheWalker := by
  intro s rest hi
  exact ⟨fun _ => step_of_unanswered_root hi, fun _ hw => step_of_unanswered (level := .pdpt) hi hw nofun,
    fun _ hw => step_of_unanswered (level := .pd) hi hw nofun, fun _ hw => step_of_unanswered (level := .pt) hi hw nofun⟩

end Sys2Proof.Machine
end

section
/-! The statements of the encoding: the entry map and the decoder, the bits of an entry that matter, what an operation
writes, and the number codes. -/

namespace Sys2Proof.Machine

open Sys2Proof

/-! ### The entry map (rules R95, R100) -/

/-- The classification of an entry is a kind of its level. -/
theorem classify_level (level : Level) (raw : Word) : (classify level raw).level = level := by
  rw [classify_eq]
  split <;> rfl

/-- The decoder gives the kind of the classification, with the whole entry. -/
theorem decode_eq_classify_instr (level : Level) (raw : Word) :
    decode level raw = (classify level raw).instr raw := by
  rw [decode_eq, classify_eq]
  split <;> rfl

/-- An entry has the bits of its classification: each kind's row of rule R100 tests the bits that selected the kind. -/
theorem classify_admits (level : Level) (raw : Word) :
    raw &&& (classify level raw).mask = (classify level raw).matchBits := by
  rw [classify_eq]
  cases hp : present raw with
  | false =>
    have hbits := (and_one_eq_zero_iff raw).mpr hp
    cases level <;> exact hbits
  | true =>
    cases level with
    | pml4 | pt => exact (and_one_eq_one_iff raw).mpr hp
    | pdpt | pd =>
      cases hs : pageSize raw with
      | false => exact (and_huge_eq_one_iff raw).mpr ⟨hp, hs⟩
      | true => exact (and_huge_eq_iff raw).mpr ⟨hp, hs⟩

/-- Entries of different kinds are different operations. -/
theorem EntryKind.eq_of_instr_eq {k k' : EntryKind} {raw : Word} (h : k.instr raw = k'.instr raw) : k = k' := by
  cases k <;> cases k' <;> cases h <;> rfl

/-- Every kind is a row of the entry map. -/
theorem EntryKind.mem_all (k : EntryKind) : k ∈ EntryKind.all := by
  cases k <;> decide

/-- Settles O2: the row is that of the classification; any row that admits the entry is the one the decoder gives. -/
theorem entryMapIsExhaustiveAndExclusive : Obligations.EntryMapIsExhaustiveAndExclusive := by
  intro level raw
  have hdecode := decode_eq_classify_instr level raw
  have hadmits := classify_admits level raw
  refine ⟨classify level raw, EntryKind.mem_all _, classify_level level raw, hadmits, hdecode, ?_, ?_⟩
  · rw [hdecode, wellFormed_instr]
    exact beq_iff_eq.mpr hadmits
  · rintro k' rfl hk'
    exact EntryKind.eq_of_instr_eq ((decode_of_admits (beq_iff_eq.mpr hk')).symm.trans hdecode)

/-- Settles O4: each word is evaluated. -/
theorem specWordsDecodeToTheirKinds : Obligations.SpecWordsDecodeToTheirKinds := by
  unfold Obligations.SpecWordsDecodeToTheirKinds
  decide

/-- Settles O5: eight bytes or more are too long a list. -/
theorem shortBytesAreRejected : Obligations.ShortBytesAreRejected := by
  intro level bytes hlen
  rw [decodeBytes.eq_def]
  split
  · simp only [List.length_cons] at hlen
    omega
  · rfl

/-! ### The bits of an entry that matter (rules R86, R149, R150, R152) -/

/-- Words that agree under a mask agree under each part of it. -/
theorem and_eq_and_of_submask {x y m n : Word} (h : x &&& m = y &&& m) (hn : m &&& n = n) : x &&& n = y &&& n := by
  rw [← hn, ← BitVec.and_assoc, h, BitVec.and_assoc]

/-- Words that agree under a mask agree in each bit of it. -/
theorem getLsbD_eq_of_and_eq {x y m : Word} {i : Nat} (h : x &&& m = y &&& m) (hi : m.getLsbD i = true) :
    x.getLsbD i = y.getLsbD i := by
  have hbit := congrArg (fun z : Word => z.getLsbD i) h
  simpa [hi] using hbit

/-- The mask of rule R152 for an entry that is present. -/
theorem relevantMask_of_present {level : Level} {raw : Word} (hp : present raw = true) :
    relevantMask level raw =
      match level, pageSize raw with
      | .pml4, _ => 0x000FFFFFFFFFF001#64
      | .pdpt, true => 0x000FFFFFC0000081#64
      | .pdpt, false => 0x000FFFFFFFFFF081#64
      | .pd, true => 0x000FFFFFFFE00081#64
      | .pd, false => 0x000FFFFFFFFFF081#64
      | .pt, _ => 0x000FFFFFFFFFF001#64 := by
  cases hs : pageSize raw <;> cases level <;> simp [relevantMask, hp, hs]

section Relevant

variable {level : Level} {raw raw' : Word} (h : raw &&& relevantMask level raw = raw' &&& relevantMask level raw)
include h

/-- The present bit is relevant at every level. -/
theorem present_eq_of_relevant : present raw = present raw' := by
  refine getLsbD_eq_of_and_eq h ?_
  cases hp : present raw with
  | false => simp [relevantMask, hp]
  | true =>
    rw [relevantMask_of_present hp]
    split <;> decide

/-- The page size of a present entry is relevant at PDPT and PD. -/
theorem pageSize_eq_of_relevant (hp : present raw = true) (hl : level = .pdpt ∨ level = .pd) :
    pageSize raw = pageSize raw' := by
  refine getLsbD_eq_of_and_eq h ?_
  rw [relevantMask_of_present hp]
  rcases hl with rfl | rfl <;> cases pageSize raw <;> decide

/-- Entries that agree in their relevant bits are of one kind. -/
theorem classify_eq_of_relevant : classify level raw = classify level raw' := by
  have hpresent := present_eq_of_relevant h
  rw [classify_eq, classify_eq, ← hpresent]
  cases hp : present raw with
  | false => cases level <;> rfl
  | true =>
    cases level with
    | pml4 | pt => rfl
    | pdpt => rw [pageSize_eq_of_relevant h hp (.inl rfl)]
    | pd => rw [pageSize_eq_of_relevant h hp (.inr rfl)]

/-- The base of an entry that leads down is relevant. -/
theorem nextBase_eq_of_relevant (hd : LeadsDown level raw) : nextBase raw = nextBase raw' := by
  obtain ⟨hp, hs⟩ := hd
  refine and_eq_and_of_submask h ?_
  rw [relevantMask_of_present hp]
  cases level with
  | pml4 | pt => simp only; decide
  | pdpt => rw [hs (.inl rfl)]; decide
  | pd => rw [hs (.inr rfl)]; decide

/-- The base of a leaf is relevant, to the size of its page. -/
theorem leafAddr_eq_of_relevant (hp : present raw = true) (va : Word) : leafAddr level raw va = leafAddr level raw' va := by
  have hmask := relevantMask_of_present (level := level) hp
  rw [leafAddr, leafAddr, ← classify_eq_of_relevant h, classify_eq, hp]
  cases level with
  | pml4 => rfl
  | pt =>
    have hbase : physicalBase raw = physicalBase raw' := nextBase_eq_of_relevant h ⟨hp, nofun⟩
    simp only [compose4k, hbase]
  | pdpt =>
    cases hs : pageSize raw with
    | false => rfl
    | true =>
      have hbase : base1g raw = base1g raw' := and_eq_and_of_submask h (by rw [hmask, hs]; decide)
      simp only [compose1g, hbase]
  | pd =>
    cases hs : pageSize raw with
    | false => rfl
    | true =>
      have hbase : base2m raw = base2m raw' := and_eq_and_of_submask h (by rw [hmask, hs]; decide)
      simp only [compose2m, hbase]

end Relevant

/-- An entry is not executed where the walker is not at the level of its kind (rule R95). -/
theorem exec_instr_out_of_place {k : EntryKind} {s : State} (raw : Word) (h : walkAt k.level s.walker = none) :
    exec (k.instr raw) s = .refused .entryOutOfPlace := by
  cases k <;> exact atLevel_out_of_place _ h

/-- A decoded entry is not executed where the walker is not at its level (rule R95). -/
theorem exec_decode_out_of_place {level : Level} {s : State} (raw : Word) (h : walkAt level s.walker = none) :
    exec (decode level raw) s = .refused .entryOutOfPlace := by
  rw [decode_eq_classify_instr]
  exact exec_instr_out_of_place raw (by rwa [classify_level])

/-- A present entry executed is determined by its leaf address, if it is a leaf, and by its base otherwise. -/
theorem exec_decode_of_present {level : Level} {s : State} {w : Walk} {raw : Word} (hw : walkAt level s.walker = some w)
    (hp : present raw = true) :
    exec (decode level raw) s = .next ((leafAddr level raw w.va).elim
      (s.setWalker (waitingAt (levelBelow level) { w with tbl := nextBase raw })) fun pa => resolve pa w s) := by
  rw [exec_decode_at raw hw, if_neg (by simp [hp])]
  cases leafAddr level raw w.va <;> rfl

/-- Settles O22: outside the level both entries are refused; at it they have the same leaf address, or lead down to the
same table. -/
theorem ignoredEntryBitsHaveNoEffect : Obligations.IgnoredEntryBitsHaveNoEffect := by
  intro level raw raw' s h
  have hpresent := present_eq_of_relevant h
  refine ⟨fun hp => ?_, fun hp => ⟨hpresent ▸ hp, classify_eq_of_relevant h⟩⟩
  cases hw : walkAt level s.walker with
  | none => rw [exec_decode_out_of_place raw hw, exec_decode_out_of_place raw' hw]
  | some w =>
    have hleaf := leafAddr_eq_of_relevant h hp w.va
    rw [exec_decode_of_present hw hp, exec_decode_of_present hw (hpresent ▸ hp), ← hleaf]
    cases ha : leafAddr level raw w.va with
    | some pa => rfl
    | none => rw [nextBase_eq_of_relevant h (leadsDown_of_leafAddr hp ha)]

/-! ### What an operation writes (rules R101, R210 to R219, R235) -/

/-- An entry kind writes only the walker (rules R210 to R219). -/
theorem exec_instr_setWalker {k : EntryKind} {raw : Word} {s t : State} (h : exec (k.instr raw) s = .next t) :
    t = s.setWalker t.walker := by
  cases k <;> (obtain ⟨w, _, rfl⟩ := eq_effect_of_atLevel h; rfl)

/-- `TRANSLATE` writes only the walker and the history (rule R235). -/
theorem execTranslate_frame {va tb : Word} {reader : Reader} {s t : State}
    (h : execTranslate va tb reader s = .next t) : t = (s.setWalker t.walker).setReads t.reads := by
  rw [execTranslate] at h
  split at h <;> cases h
  · exact translateFrom_frame _ s
  · rfl

/-- A function writes only its output (rule R101). -/
theorem exec_function_setOut {i : Instr} {s t : State} (henc : encode i = none)
    (hfun : ∀ va tb reader, i ≠ .translate va tb reader) (h : exec i s = .next t) : ∃ r, t = s.setOut r := by
  cases i with
  | translate va tb reader => exact absurd rfl (hfun va tb reader)
  | pml4eNp | pml4eTable | pdpteNp | pdptePage1g | pdpteTable | pdeNp | pdePage2m | pdeTable | pteNp | ptePage4k =>
    cases henc
  | _ => cases h; exact ⟨_, rfl⟩

/-- What an operation writes, by its family: an entry kind the walker, `TRANSLATE` the walker and the history, a function
its output. -/
theorem exec_cases {i : Instr} {s t : State} (h : exec i s = .next t) :
    (encode i ≠ none ∧ t = s.setWalker t.walker) ∨
    ((∃ va tb reader, i = .translate va tb reader) ∧ t = (s.setWalker t.walker).setReads t.reads) ∨
    (encode i = none ∧ (∀ va tb reader, i ≠ .translate va tb reader) ∧ ∃ r, t = s.setOut r) := by
  cases henc : encode i with
  | some lr =>
    obtain ⟨k, rfl, _⟩ := eq_instr_of_encode (level := lr.1) (raw := lr.2) henc
    exact .inl ⟨nofun, exec_instr_setWalker h⟩
  | none =>
    by_cases hi : ∃ va tb reader, i = .translate va tb reader
    · refine .inr (.inl ⟨hi, ?_⟩)
      obtain ⟨va, tb, reader, rfl⟩ := hi
      exact execTranslate_frame h
    · have hfun : ∀ va tb reader, i ≠ .translate va tb reader := fun va tb reader he => hi ⟨va, tb, reader, he⟩
      exact .inr (.inr ⟨rfl, hfun, exec_function_setOut henc hfun h⟩)

/-- Settles O36: the three families. -/
theorem operationsKeepWhatTheyDoNotWrite : Obligations.OperationsKeepWhatTheyDoNotWrite := by
  intro i s t h
  rcases exec_cases h with ⟨henc, ht⟩ | ⟨⟨va, tb, reader, rfl⟩, ht⟩ | ⟨henc, hfun, r, rfl⟩
  · rw [ht]
    refine ⟨⟨rfl, rfl⟩, fun _ => ⟨rfl, rfl⟩, fun hnone => absurd hnone henc, ?_⟩
    rintro va tb reader rfl
    exact absurd rfl henc
  · rw [ht]
    exact ⟨⟨rfl, rfl⟩, fun hne => absurd rfl hne, fun _ hne => absurd rfl (hne va tb reader), fun _ _ _ _ => rfl⟩
  · exact ⟨⟨rfl, rfl⟩, fun hne => absurd henc hne, fun _ _ => ⟨rfl, rfl⟩, fun va tb reader hi => absurd hi (hfun va tb reader)⟩

/-- Settles O7: each function is a call of `State.setOut` with its value. -/
theorem functionsDriveTheirValue : Obligations.FunctionsDriveTheirValue := by
  intro s va raw tb base index level
  and_intros <;> rfl

/-! ### The number codes (rules R87 to R89) -/

/-- Settles O52: each code is its definition's. -/
theorem codesAreThoseOfTheSpec : Obligations.CodesAreThoseOfTheSpec :=
  ⟨rfl, rfl, fun _ _ _ _ _ _ _ _ _ _ _ => rfl⟩

end Sys2Proof.Machine
end

section
/-! The statements of spec/40_va_index_extractor.md: the fields of a virtual address, the huge-page offsets, canonical
addresses, and the upper 16 bits, which reach a translation only as the echoed `va`. -/

namespace Sys2Proof.Machine

open Sys2Proof

/-! ### Fields of a word as shift and mask (rules R120 to R124) -/

/-- A field of a word is the word shifted and masked. -/
theorem setWidth_extractLsb'_eq_and (x : Word) (lo : Nat) {n : Nat} (hn : n ≤ 64) :
    (x.extractLsb' lo n).setWidth 64 = (x >>> lo) &&& BitVec.ofNat 64 (2 ^ n - 1) := by
  have hmask : 2 ^ n - 1 < 2 ^ 64 :=
    Nat.lt_of_lt_of_le (Nat.sub_lt (Nat.two_pow_pos n) Nat.one_pos) (Nat.pow_le_pow_right Nat.two_pos hn)
  apply BitVec.eq_of_toNat_eq
  rw [BitVec.toNat_setWidth_of_le hn, BitVec.extractLsb'_toNat, BitVec.toNat_and, BitVec.toNat_ofNat,
    Nat.mod_eq_of_lt hmask, Nat.and_two_pow_sub_one_eq_mod, BitVec.toNat_ushiftRight]

/-- The lowest field of a word is the word masked. -/
theorem setWidth_extractLsb'_zero_eq_and (x : Word) {n : Nat} (hn : n ≤ 64) :
    (x.extractLsb' 0 n).setWidth 64 = x &&& BitVec.ofNat 64 (2 ^ n - 1) := by
  rw [setWidth_extractLsb'_eq_and x 0 hn, BitVec.ushiftRight_zero]

/-- The PML4 index as a number. -/
theorem pml4Index_toNat (va : Word) : (pml4Index va).toNat = va.toNat / 2 ^ 39 % 2 ^ 9 := by
  rw [pml4Index, BitVec.extractLsb'_toNat, Nat.shiftRight_eq_div_pow]

/-- Bits 63:47 of an address as a number. -/
theorem extractLsb'_47_17_toNat (va : Word) : (va.extractLsb' 47 17).toNat = va.toNat / 2 ^ 47 := by
  rw [BitVec.extractLsb'_toNat, Nat.shiftRight_eq_div_pow]
  omega

/-- Settles O8: each field is a shift and a mask, and bit 47 is the top bit of the PML4 index. -/
theorem fieldFunctionsExtractTheirBits : Obligations.FieldFunctionsExtractTheirBits := by
  intro va
  have hindex := pml4Index_toNat va
  have hupper := extractLsb'_47_17_toNat va
  refine ⟨setWidth_extractLsb'_eq_and va 39 (by decide), setWidth_extractLsb'_eq_and va 30 (by decide),
    setWidth_extractLsb'_eq_and va 21 (by decide), setWidth_extractLsb'_eq_and va 12 (by decide),
    setWidth_extractLsb'_zero_eq_and va (by decide), fun hones => ?_, fun hzeros => ?_⟩
  · rw [hones, BitVec.toNat_ofNat] at hupper
    omega
  · rw [hzeros, BitVec.toNat_ofNat] at hupper
    omega

/-! ### The address put together from its fields (rules R125, R126, R176, R177) -/

/-- An address is its upper 16 bits and its five fields, put side by side (rule R126). -/
theorem eq_append_fields (va : Word) : va = va.extractLsb' 48 16 ++ pml4Index va ++ pdptIndex va ++ pdIndex va ++
    ptIndex va ++ pageOffset va := by
  rw [pml4Index, pdptIndex, pdIndex, ptIndex, pageOffset]
  iterate 5 rw [BitVec.extractLsb'_append_extractLsb'_eq_extractLsb' (by rfl)]
  exact BitVec.extractLsb'_eq_self.symm

/-- The fields put side by side under any 16 upper bits are the fields of the word they make (rule R126). -/
theorem decompose_append_fields (upper : BitVec 16) (g : VaFields) :
    decompose (upper ++ g.pml4Index ++ g.pdptIndex ++ g.pdIndex ++ g.ptIndex ++ g.pageOffset) = g := by
  simp (disch := decide) only [decompose, pml4Index, pdptIndex, pdIndex, ptIndex, pageOffset, Nat.reduceSub,
    BitVec.extractLsb'_append_eq_of_le, BitVec.extractLsb'_append_eq_of_add_le, BitVec.extractLsb'_eq_self]

/-- An address as a number is the weighted sum of its upper bits and its fields. -/
theorem toNat_eq_sum_fields (va : Word) : va.toNat = (va.extractLsb' 48 16).toNat * 2 ^ 48 +
    (pml4Index va).toNat * 2 ^ 39 + (pdptIndex va).toNat * 2 ^ 30 + (pdIndex va).toNat * 2 ^ 21 +
    (ptIndex va).toNat * 2 ^ 12 + (pageOffset va).toNat := by
  simp only [pml4Index, pdptIndex, pdIndex, ptIndex, pageOffset, BitVec.extractLsb'_toNat, Nat.shiftRight_eq_div_pow]
  omega

/-- Settles O9: the upper bits are dropped from the sum, and any upper bits give an address with the same fields. -/
theorem decomposeReconstructsTheLowBits : Obligations.DecomposeReconstructsTheLowBits := by
  intro va
  refine ⟨rfl, ?_, ?_, fun g => ⟨?_, ?_⟩⟩
  · have hsum := toNat_eq_sum_fields va
    simp only [decompose]
    omega
  · exact (Nat.and_two_pow_sub_one_eq_mod va.toNat 48).symm
  · rintro rfl
    exact ⟨_, eq_append_fields va⟩
  · rintro ⟨upper, rfl⟩
    exact decompose_append_fields upper g

/-- `OFFSET_2M` is the PT index and the page offset side by side (rule R176). -/
theorem offset2m_eq_append (va : Word) : offset2m va = ptIndex va ++ pageOffset va := by
  rw [ptIndex, pageOffset, BitVec.extractLsb'_append_extractLsb'_eq_extractLsb' (by rfl)]
  rfl

/-- `OFFSET_1G` is the PD index, the PT index and the page offset side by side (rule R177). -/
theorem offset1g_eq_append (va : Word) : offset1g va = pdIndex va ++ offset2m va := by
  rw [pdIndex, offset2m, BitVec.extractLsb'_append_extractLsb'_eq_extractLsb' (by rfl)]
  rfl

/-- `OFFSET_2M` as a sum (rule R176). -/
theorem offset2m_toNat (va : Word) : (offset2m va).toNat = (ptIndex va).toNat * 2 ^ 12 + (pageOffset va).toNat := by
  rw [offset2m_eq_append, toNat_append_eq_add]

/-- Settles O10: indices and offset side by side are their scaled sum, so the sum carries nothing. -/
theorem hugeOffsetsAreTheLowBits : Obligations.HugeOffsetsAreTheLowBits := by
  intro va
  refine ⟨offset2m_toNat va, setWidth_extractLsb'_zero_eq_and va (by decide), ?_,
    setWidth_extractLsb'_zero_eq_and va (by decide)⟩
  rw [offset1g_eq_append, toNat_append_eq_add, offset2m_toNat, Nat.add_assoc]

/-! ### Canonical addresses (rule R127) -/

/-- The sign extension of the low 48 bits of an address as a number: bit 47 decides whether the upper bits are ones. -/
theorem signExtend_low48_toNat (va : Word) : ((va.extractLsb' 0 48).signExtend 64).toNat =
    va.toNat % 2 ^ 48 + if 2 ^ 47 ≤ va.toNat % 2 ^ 48 then 2 ^ 64 - 2 ^ 48 else 0 := by
  rw [BitVec.toNat_signExtend, BitVec.toNat_setWidth_of_le (by decide), BitVec.msb_eq_decide, BitVec.extractLsb'_toNat,
    Nat.shiftRight_zero]
  simp only [decide_eq_true_eq]

/-- `IS_CANONICAL` as two ranges of numbers (rule R127). -/
theorem isCanonical_iff_range (va : Word) :
    isCanonical va = true ↔ va.toNat < 2 ^ 47 ∨ 2 ^ 64 - 2 ^ 47 ≤ va.toNat := by
  rw [isCanonical, beq_iff_eq, BitVec.toNat_eq, signExtend_low48_toNat]
  split <;> omega

/-- Settles O11: the ranges are those of the numbers whose bits 63:47 are all zero or all one. -/
theorem isCanonicalIsTheTwoRanges : Obligations.IsCanonicalIsTheTwoRanges := by
  intro va
  refine ⟨beq_iff_eq, ?_, ?_⟩ <;> rw [isCanonical_iff_range]
  · rw [BitVec.toNat_eq, BitVec.toNat_eq, extractLsb'_47_17_toNat, BitVec.toNat_ofNat, BitVec.toNat_ofNat]
    omega
  · omega

/-! ### Addresses that agree in bits 47:0 (rule R128) -/

/-- A walker with another virtual address echoed in its registers. -/
def Walker.withVa (va : Word) : Walker → Walker
  | .start taken => .start (taken.map fun r => { r with va := va })
  | .atPml4 w raw => .atPml4 { w with va := va } raw
  | .atPdpt w => .atPdpt { w with va := va }
  | .atPd w => .atPd { w with va := va }
  | .atPt w => .atPt { w with va := va }
  | .resolved _ tb pa steps => .resolved va tb pa steps
  | .failed _ tb kind level raw err steps => .failed va tb kind level raw err steps

/-- A state with another virtual address echoed in the registers of the walker. -/
def State.withVa (va : Word) (s : State) : State := s.setWalker (s.walker.withVa va)

/-- What `FETCH` comes to, with another virtual address echoed. -/
def Fetch.withVa (va : Word) : Fetch → Fetch
  | .unanswered => .unanswered
  | .failed t => .failed (t.withVa va)
  | .fetched raw w t => .fetched raw { w with va := va } t

@[simp] theorem State.withVa_mem (va : Word) (s : State) : (s.withVa va).mem = s.mem := rfl
@[simp] theorem State.withVa_inputs (va : Word) (s : State) : (s.withVa va).inputs = s.inputs := rfl
@[simp] theorem State.withVa_reads (va : Word) (s : State) : (s.withVa va).reads = s.reads := rfl
@[simp] theorem State.withVa_out (va : Word) (s : State) : (s.withVa va).out = s.out := rfl

/-- Of the addresses echoed one after the other the last one stays. -/
@[simp] theorem State.withVa_withVa (va va' : Word) (s : State) : (s.withVa va').withVa va = s.withVa va := by
  simp only [State.withVa, State.setWalker]
  congr 1
  cases s.walker with
  | start taken => cases taken <;> rfl
  | _ => rfl

/-- The result the host receives does not hold the address it asked for (rule R232). -/
@[simp] theorem State.result_withVa (va : Word) (s : State) : (s.withVa va).result = s.result := by
  simp only [State.result, State.withVa, State.setWalker_walker]
  cases s.walker <;> rfl

/-- Waiting for a read differs in the echoed address only. -/
theorem waitingAt_withVa (level : Level) (va : Word) (w : Walk) (s : State) :
    s.setWalker (waitingAt level { w with va := va }) = (s.setWalker (waitingAt level w)).withVa va := by
  cases level <;> rfl

section LowBits

variable {va va' : Word} (h : va.extractLsb' 0 48 = va'.extractLsb' 0 48)
include h

/-- Every field within bits 47:0 is the same. -/
theorem extractLsb'_eq_of_low48 {lo n : Nat} (hn : lo + n ≤ 48) : va.extractLsb' lo n = va'.extractLsb' lo n := by
  apply BitVec.eq_of_getLsbD_eq
  intro i hi
  have hbit := congrArg (fun x => x.getLsbD (lo + i)) h
  simpa [BitVec.getLsbD_extractLsb', hi, show lo + i < 48 by omega] using hbit

/-- The index of every level is the same (rule R24). -/
theorem indexAt_eq_of_low48 (level : Level) : indexAt level va = indexAt level va' := by
  cases level <;> exact extractLsb'_eq_of_low48 h (by decide)

/-- The page offset is the same (rule R124). -/
theorem pageOffset_eq_of_low48 : pageOffset va = pageOffset va' := extractLsb'_eq_of_low48 h (by decide)

/-- The five fields are the same (rule R128). -/
theorem decompose_eq_of_low48 : decompose va = decompose va' := by
  have hpml4 : pml4Index va = pml4Index va' := indexAt_eq_of_low48 h .pml4
  have hpdpt : pdptIndex va = pdptIndex va' := indexAt_eq_of_low48 h .pdpt
  have hpd : pdIndex va = pdIndex va' := indexAt_eq_of_low48 h .pd
  have hpt : ptIndex va = ptIndex va' := indexAt_eq_of_low48 h .pt
  rw [decompose, decompose, hpml4, hpdpt, hpd, hpt, pageOffset_eq_of_low48 h]

/-- A leaf resolves to the same address: each offset lies within bits 47:0 (rules R178 to R180). -/
theorem leafAddr_eq_of_low48 (level : Level) (raw : Word) : leafAddr level raw va = leafAddr level raw va' := by
  have h2m : offset2m va = offset2m va' := extractLsb'_eq_of_low48 h (by decide)
  have h1g : offset1g va = offset1g va' := extractLsb'_eq_of_low48 h (by decide)
  simp only [leafAddr, compose4k, compose2m, compose1g, pageOffset_eq_of_low48 h, h2m, h1g]

/-- A fetch reads the same entry and differs in the echoed address only. -/
theorem fetch_eq_of_low48 (level : Level) {w : Walk} (hw : w.va = va) (s : State) :
    fetch level { w with va := va' } s = (fetch level w s).withVa va' := by
  subst hw
  rcases fetch_cases level w s with ⟨hm, hf⟩ | ⟨e, reader, hm, hf⟩ | ⟨v, reader, hm, hf⟩ <;>
    rw [hf, fetch] <;> simp only [← indexAt_eq_of_low48 h, hm] <;> rfl

/-- The loop of rule R231 differs in the echoed address only. -/
theorem translateLevels_eq_of_low48 (levels : List Level) {w : Walk} (hw : w.va = va) (s : State) :
    (translateLevels levels { w with va := va' } s).withVa va' = (translateLevels levels w s).withVa va' := by
  induction levels generalizing w s with
  | nil => rfl
  | cons level below ih =>
    rw [translateLevels_cons, translateLevels_cons, fetch_eq_of_low48 h level hw]
    rcases hf : fetch level w s with _ | t | ⟨raw, w', t⟩ <;> simp only [Fetch.withVa]
    · rw [waitingAt_withVa, State.withVa_withVa]
    · exact State.withVa_withVa va' va' t
    · obtain ⟨_, _, _, _, _, hva, _, _⟩ := fetch_fetched_frame hf
      have hleaf : leafAddr level raw va' = leafAddr level raw w'.va := by rw [hva, hw, leafAddr_eq_of_low48 h]
      rw [hleaf]
      cases present raw with
      | false => rfl
      | true =>
        cases leafAddr level raw w'.va with
        | some pa => rfl
        | none => exact ih (w := { w' with tbl := nextBase raw }) (hva.trans hw) t

/-- Under `truncate` a translation differs in the echoed address only (rules R128, R253). -/
theorem translateFrom_eq_of_low48 (tb : Word) (reader : Reader) {s : State} (hs : s.policy = .truncate) :
    (translateFrom ⟨va', tb, reader⟩ s).withVa va' = (translateFrom ⟨va, tb, reader⟩ s).withVa va' := by
  have hadmit : ∀ x, rejects s x = false := fun x => by rw [rejects, hs]; rfl
  simp only [translateFrom, hadmit]
  exact translateLevels_eq_of_low48 h walkLevels (w := Request.walk ⟨va, tb, reader⟩) rfl (s.setReads [])

end LowBits

/-- Outside `Start`, and with a request taken, `TRANSLATE` has no effect (rule R305). -/
theorem exec_translate_of_not_start {s : State} (va tb : Word) (reader : Reader) (h : s.walker ≠ .start none) :
    exec (.translate va tb reader) s = .next s := by
  rw [exec, execTranslate]
  split
  · exact absurd ‹_› h
  · rfl

/-- States that differ in the echoed address only have the same result, reads, memory, moves and output. -/
theorem State.eq_fields_of_withVa_eq {va : Word} {s t : State} (h : s.withVa va = t.withVa va) :
    s.result = t.result ∧ s.reads = t.reads ∧ s.mem = t.mem ∧ s.inputs = t.inputs ∧ s.out = t.out := by
  rw [← s.result_withVa va, ← s.withVa_reads va, ← s.withVa_mem va, ← s.withVa_inputs va, ← s.withVa_out va,
    h]
  exact ⟨t.result_withVa va, rfl, rfl, rfl, rfl⟩

/-- Settles O49: in `Start` the two translations differ in the echoed address only; in any other state neither has an
effect. -/
theorem upperAddressBitsHaveNoEffect : Obligations.UpperAddressBitsHaveNoEffect := by
  intro va va' h
  refine ⟨decompose_eq_of_low48 h, fun s t tb reader hs ht => ?_⟩
  by_cases hw : s.walker = .start none
  · rw [exec_translate_of_start va tb reader hw] at ht
    cases ht
    exact ⟨_, exec_translate_of_start va' tb reader hw,
      State.eq_fields_of_withVa_eq (translateFrom_eq_of_low48 h tb reader hs)⟩
  · rw [exec_translate_of_not_start va tb reader hw] at ht
    cases ht
    exact ⟨s, exec_translate_of_not_start va' tb reader hw, rfl, rfl, rfl, rfl, rfl⟩

end Sys2Proof.Machine
end

section
/-! The statements of spec/41_pte_decoder_and_validator.md: the kinds of entry, the flags and the base of an entry, and the
bits on which its decoded record depends. -/

namespace Sys2Proof.Machine

open Sys2Proof

/-! ### The kinds of entry (rule R148) -/

/-- Settles O3: the present bit, and the page size at PDPT and PD, select the case of `classify_eq`. -/
theorem classifyGivesTheDecodedKind : Obligations.ClassifyGivesTheDecodedKind := by
  intro level raw
  refine ⟨decode_eq_classify_instr level raw, fun hnp => ?_, fun hp => ?_⟩
  · have hpresent : present raw = false := hnp
    rw [classify_eq, hpresent]
    refine ⟨?_, ?_, ?_, ?_⟩ <;> rintro rfl <;> rfl
  · have hpresent : present raw = true := hp
    have hpageSize : raw.getLsbD 7 = pageSize raw := rfl
    rw [classify_eq, hpresent, hpageSize]
    refine ⟨?_, ?_, ?_, ?_⟩ <;> rintro rfl
    · rfl
    · rfl
    · cases pageSize raw <;> rfl
    · cases pageSize raw <;> rfl

/-! ### The decoded record (rules R140 to R146) -/

/-- Entries that agree under `0x000F_FFFF_FFFF_F087` have one record: the mask holds the bit of each flag, and the mask of the
base (rule R146). -/
theorem decodeEntry_eq_of_and_eq {raw raw' : Word} (h : raw &&& 0x000FFFFFFFFFF087#64 = raw' &&& 0x000FFFFFFFFFF087#64) :
    decodeEntry raw = decodeEntry raw' := by
  have hpresent : present raw = present raw' := getLsbD_eq_of_and_eq h (by decide)
  have hwritable : writable raw = writable raw' := getLsbD_eq_of_and_eq h (by decide)
  have huser : user raw = user raw' := getLsbD_eq_of_and_eq h (by decide)
  have hpageSize : pageSize raw = pageSize raw' := getLsbD_eq_of_and_eq h (by decide)
  have hbase : physicalBase raw = physicalBase raw' := and_eq_and_of_submask h (by decide)
  rw [decodeEntry, decodeEntry, hpresent, hwritable, huser, hpageSize, hbase]

/-- Settles O13: the record is its five fields, and each lies under the mask. -/
theorem decodeDependsOnlyOnTheModelledBits : Obligations.DecodeDependsOnlyOnTheModelledBits :=
  fun _ => ⟨rfl, fun _ h => (decodeEntry_eq_of_and_eq h).symm⟩

/-- Settles O14: the three functions are the mask of bits 51:12, and a word under that mask is a table base. -/
theorem tableBasesAreMaskedAndAligned : Obligations.TableBasesAreMaskedAndAligned := by
  intro x
  obtain ⟨haligned, hbound⟩ := isTableBase_and_physBaseMask x
  exact ⟨rfl, rfl, rfl, haligned, hbound⟩

/-- A bit of a word, as a word, is the word shifted and masked: the bit is a field of one bit. -/
theorem setWidth_ofBool_getLsbD (x : Word) (i : Nat) : (BitVec.ofBool (x.getLsbD i)).setWidth 64 = (x >>> i) &&& 1#64 := by
  have hfield : BitVec.ofBool (x.getLsbD i) = x.extractLsb' i 1 := by
    simp [BitVec.eq_of_getLsbD_eq_iff]
  rw [hfield, setWidth_extractLsb'_eq_and x i (by decide)]
  rfl

/-- Settles O12: each flag is one bit of the entry; bit 0 needs no shift. -/
theorem flagFunctionsExtractTheirBit : Obligations.FlagFunctionsExtractTheirBit := by
  intro raw
  have hpresent := setWidth_ofBool_getLsbD raw 0
  rw [BitVec.ushiftRight_zero] at hpresent
  exact ⟨hpresent, setWidth_ofBool_getLsbD raw 1, setWidth_ofBool_getLsbD raw 2, setWidth_ofBool_getLsbD raw 7⟩

end Sys2Proof.Machine
end

section
/-! The statements of spec/42_physical_address_composer.md: a masked base and an offset share no bit, so entry addresses and
physical addresses are sums without a carry; and the three walks that end in a leaf. -/

namespace Sys2Proof.Machine

open Sys2Proof

/-! ### Masked bases (rules R171, R174, R175) and sums without a carry (rules R186, R187)

A mask of bits 51 down to `n` leaves a base; an offset of `n` bits lies below it. -/

section BaseMask

variable {n : Nat} {mask : Word} (hmask : ∀ i, mask.getLsbD i = decide (n ≤ i ∧ i < 52))
include hmask

/-- A base has ones only where the mask has. -/
theorem lt_of_getLsbD_and_mask (raw : Word) (i : Nat) (hi : (raw &&& mask).getLsbD i = true) : n ≤ i ∧ i < 52 := by
  rw [BitVec.getLsbD_and, hmask, Bool.and_eq_true, decide_eq_true_eq] at hi
  exact hi.2

/-- A base has zeros where the mask has. -/
theorem getLsbD_and_mask_eq_false (raw : Word) {i : Nat} (hi : ¬ (n ≤ i ∧ i < 52)) : (raw &&& mask).getLsbD i = false :=
  Bool.eq_false_iff.mpr fun h => hi (lt_of_getLsbD_and_mask hmask raw i h)

/-- A base is aligned to the lowest bit of its mask. -/
theorem toNat_and_mask_mod (raw : Word) : (raw &&& mask).toNat % 2 ^ n = 0 :=
  toNat_mod_of_getLsbD fun _ hi => getLsbD_and_mask_eq_false hmask raw fun h => Nat.not_le.mpr hi h.1

/-- A base is below `2^52`. -/
theorem toNat_and_mask_lt (raw : Word) : (raw &&& mask).toNat < 2 ^ 52 :=
  toNat_lt_of_getLsbD fun _ hi => getLsbD_and_mask_eq_false hmask raw fun h => Nat.not_le.mpr h.2 hi

/-- Base plus offset is their bitwise or (rule R187). -/
theorem and_mask_add_eq_or (raw : Word) (offset : BitVec n) :
    (raw &&& mask) + offset.setWidth 64 = (raw &&& mask) ||| offset.setWidth 64 := by
  refine BitVec.add_eq_or_of_and_eq_zero _ _ (and_eq_zero_of_disjoint fun i _ hi => ?_)
  rw [BitVec.getLsbD_setWidth, BitVec.getLsbD_of_ge offset i (lt_of_getLsbD_and_mask hmask raw i hi).1, Bool.and_false]

/-- Base plus offset is the sum of the two numbers (rule R186). -/
theorem toNat_and_mask_add (hn : n ≤ 52) (raw : Word) (offset : BitVec n) :
    ((raw &&& mask) + offset.setWidth 64).toNat = (raw &&& mask).toNat + offset.toNat := by
  have hoffset : (offset.setWidth 64).toNat = offset.toNat := BitVec.toNat_setWidth_of_le (by omega)
  have hbase := toNat_and_mask_lt hmask raw
  have hlt : offset.toNat < 2 ^ 52 := Nat.lt_of_lt_of_le offset.isLt (Nat.pow_le_pow_right Nat.two_pos hn)
  rw [BitVec.toNat_add_of_lt (by omega), hoffset]

/-- The low bits of base plus offset are the offset (rule R188). -/
theorem extractLsb'_low_and_mask_add (hn : n ≤ 52) (raw : Word) (offset : BitVec n) :
    ((raw &&& mask) + offset.setWidth 64).extractLsb' 0 n = offset := by
  rw [and_mask_add_eq_or hmask]
  apply BitVec.eq_of_getLsbD_eq
  intro i hi
  have hbase := getLsbD_and_mask_eq_false hmask raw fun h => Nat.not_le.mpr hi h.1
  rw [BitVec.getLsbD_extractLsb', Nat.zero_add, BitVec.getLsbD_or, hbase, BitVec.getLsbD_setWidth]
  simp [hi, show i < 64 by omega]

/-- The bits of base plus offset from `n` to 51 are those of the entry (rule R188). -/
theorem extractLsb'_high_and_mask_add (raw : Word) (offset : BitVec n) :
    ((raw &&& mask) + offset.setWidth 64).extractLsb' n (52 - n) = raw.extractLsb' n (52 - n) := by
  rw [and_mask_add_eq_or hmask]
  apply BitVec.eq_of_getLsbD_eq
  intro i hi
  simp [hmask, hi, show n + i < 52 by omega]

/-- An entry's base plus the low bits of a virtual address: the bitwise or, low bits of the address, high bits of the
entry, below `2^52` (rules R178 to R180, R186 to R188). -/
theorem compose_of_mask (hn : n ≤ 52) (raw va : Word) :
    let pa := (raw &&& mask) + (va.extractLsb' 0 n).setWidth 64
    pa = (raw &&& mask) ||| (va &&& BitVec.ofNat 64 (2 ^ n - 1)) ∧
      pa.extractLsb' 0 n = va.extractLsb' 0 n ∧ pa.extractLsb' n (52 - n) = raw.extractLsb' n (52 - n) ∧
      pa.toNat < 2 ^ 52 := by
  refine ⟨?_, extractLsb'_low_and_mask_add hmask hn raw _,
    extractLsb'_high_and_mask_add hmask raw _, toNat_add_offset_lt (lt_of_getLsbD_and_mask hmask raw) hn _⟩
  rw [and_mask_add_eq_or hmask, setWidth_extractLsb'_zero_eq_and va (by omega)]

end BaseMask

/-! ### The statements about bases, entry addresses and compositions (rules R173 to R180) -/

/-- The scaled index is the index over three zero bits, an offset of 12 bits (rule R173). -/
theorem setWidth_mul_eight_eq_append (index : BitVec 9) :
    index.setWidth 64 * 8#64 = (index ++ 0#3 : BitVec 12).setWidth 64 := by
  have hindex := index.isLt
  apply BitVec.eq_of_toNat_eq
  rw [BitVec.toNat_setWidth_of_le (by decide), toNat_append_eq_add, BitVec.toNat_mul,
    BitVec.toNat_setWidth_of_le (by decide), BitVec.toNat_ofNat, BitVec.toNat_ofNat]
  omega

/-- The address of an entry in a table is an exact sum (rule R173). -/
theorem entryAddr_and_physBaseMask_toNat (base : Word) (index : BitVec 9) :
    (entryAddr (base &&& physBaseMask) index).toNat = (base &&& physBaseMask).toNat + index.toNat * 8 := by
  rw [entryAddr, setWidth_mul_eight_eq_append, toNat_and_mask_add physBaseMask_getLsbD (by decide),
    toNat_append_eq_add]
  rfl

/-- The address of an entry in a table is a bitwise or (rules R173, R187). -/
theorem entryAddr_and_physBaseMask_eq_or (base : Word) (index : BitVec 9) :
    entryAddr (base &&& physBaseMask) index = (base &&& physBaseMask) ||| (index.setWidth 64 <<< 3) := by
  rw [entryAddr, ← setWidth_mul_eight, setWidth_mul_eight_eq_append, and_mask_add_eq_or physBaseMask_getLsbD]

/-- Settles O15: a table base is its own mask, and the index scaled is an offset of 12 bits at most 4088. -/
theorem entryAddressStaysInItsTable : Obligations.EntryAddressStaysInItsTable := by
  refine fun base index => ⟨rfl, fun hbase => ?_⟩
  have hor := entryAddr_and_physBaseMask_eq_or base index
  have hnat := entryAddr_and_physBaseMask_toNat base index
  obtain ⟨⟨haligned, hbound⟩, _⟩ := isEntryAddr_entryAddr (isTableBase_and_physBaseMask base) index
  rw [show base &&& physBaseMask = base from hbase] at hor hnat haligned hbound
  have hindex := index.isLt
  exact ⟨hor, hnat, haligned, by omega, by omega, hbound⟩

/-- Settles O16: each base is its mask, and clearing the low bits of the physical base leaves that mask. -/
theorem hugeBasesDropTheirLowBits : Obligations.HugeBasesDropTheirLowBits := by
  have h2m : physBaseMask &&& ~~~(0x1FF000#64) = base2mMask := by decide
  have h1g : physBaseMask &&& ~~~(0x3FFFF000#64) = base1gMask := by decide
  refine fun raw => ⟨⟨rfl, ?_, toNat_and_mask_mod base2mMask_getLsbD raw, toNat_and_mask_lt base2mMask_getLsbD raw⟩,
    rfl, ?_, toNat_and_mask_mod base1gMask_getLsbD raw, toNat_and_mask_lt base1gMask_getLsbD raw⟩
  · rw [physicalBase, BitVec.and_assoc, h2m, base2m]
  · rw [physicalBase, BitVec.and_assoc, h1g, base1g]

/-- `OFFSET_1G` as a sum (rule R177). -/
theorem offset1g_toNat (va : Word) :
    (offset1g va).toNat = (pdIndex va).toNat * 2 ^ 21 + (ptIndex va).toNat * 2 ^ 12 + (pageOffset va).toNat := by
  rw [offset1g_eq_append, toNat_append_eq_add, offset2m_toNat, Nat.add_assoc]

/-- `COMPOSE_4K` as a number (rule R178). -/
theorem compose4k_toNat (raw va : Word) :
    (compose4k raw va).toNat = (physicalBase raw).toNat + (pageOffset va).toNat :=
  toNat_and_mask_add physBaseMask_getLsbD (by decide) raw (pageOffset va)

/-- `COMPOSE_2M` as a number (rule R179). -/
theorem compose2m_toNat (raw va : Word) :
    (compose2m raw va).toNat = (base2m raw).toNat + ((ptIndex va).toNat * 2 ^ 12 + (pageOffset va).toNat) := by
  rw [← offset2m_toNat]
  exact toNat_and_mask_add base2mMask_getLsbD (by decide) raw (offset2m va)

/-- `COMPOSE_1G` as a number (rule R180). -/
theorem compose1g_toNat (raw va : Word) :
    (compose1g raw va).toNat = (base1g raw).toNat +
      ((pdIndex va).toNat * 2 ^ 21 + (ptIndex va).toNat * 2 ^ 12 + (pageOffset va).toNat) := by
  rw [← offset1g_toNat]
  exact toNat_and_mask_add base1gMask_getLsbD (by decide) raw (offset1g va)

/-- Settles O17: the three compositions are the masks of bits 51:12, 51:21 and 51:30, each with the bits of the address
below it. -/
theorem compositionsTakeHighBitsFromTheEntry : Obligations.CompositionsTakeHighBitsFromTheEntry := by
  intro raw va
  obtain ⟨hor4k, hlow4k, hhigh4k, hlt4k⟩ := compose_of_mask physBaseMask_getLsbD (by decide) raw va
  obtain ⟨hor2m, hlow2m, hhigh2m, hlt2m⟩ := compose_of_mask base2mMask_getLsbD (by decide) raw va
  obtain ⟨hor1g, hlow1g, hhigh1g, hlt1g⟩ := compose_of_mask base1gMask_getLsbD (by decide) raw va
  exact ⟨⟨rfl, hor4k, compose4k_toNat raw va, hlow4k, hhigh4k, hlt4k⟩,
    ⟨rfl, hor2m, compose2m_toNat raw va, hlow2m, hhigh2m, hlt2m⟩,
    ⟨rfl, hor1g, compose1g_toNat raw va, hlow1g, hhigh1g, hlt1g⟩⟩

/-! ### A walk to a leaf (rules R213, R216, R219, R231, R238) -/

/-- A fetch takes the entry that a script answers next (rules R67, R207). -/
theorem fetch_of_script {w : Walk} {raw : Word} {more : List ReadAnswer} (level : Level) (s : State)
    (hr : w.reader = .script (.ok raw :: more)) :
    fetch level w s = .fetched raw
      { w with reader := .script more, steps := w.steps ++ [walkStepOf level w.tbl (indexAt level w.va) raw] }
      (s.setReads (s.reads ++ [⟨entryAddr w.tbl (indexAt level w.va), .ok raw⟩])) := by
  rw [fetch, hr]
  rfl

/-- An entry that is not present is no leaf. -/
theorem present_of_leafAddr {level : Level} {raw va pa : Word} (h : leafAddr level raw va = some pa) :
    present raw = true := by
  cases hp : present raw with
  | true => rfl
  | false => cases level <;> simp [leafAddr, classify_eq, hp] at h

/-- The walk one level down: the entry recorded, its table the current one, and the answers left in the script. -/
def Walk.down (w : Walk) (level : Level) (raw : Word) (more : List ReadAnswer) : Walk :=
  { w with
    reader := .script more
    tbl := nextBase raw
    steps := w.steps ++ [walkStepOf level w.tbl (indexAt level w.va) raw] }

/-- The loop of rule R231, answered with an entry that leads down, goes on at the level below, in the table of that
entry. -/
theorem translateLevels_of_leadsDown {level : Level} {below : List Level} {w : Walk} {raw : Word}
    {more : List ReadAnswer} (s : State) (hd : LeadsDown level raw) (hl : level ≠ .pt)
    (hr : w.reader = .script (.ok raw :: more)) :
    translateLevels (level :: below) w s =
      translateLevels below (w.down level raw more)
        (s.setReads (s.reads ++ [⟨entryAddr w.tbl (indexAt level w.va), .ok raw⟩])) := by
  rw [translateLevels_cons, fetch_of_script level s hr]
  simp only [hd.1, leafAddr_of_leadsDown hd hl]
  rfl

/-- The loop of rule R231, answered with the entries of a descent and then a leaf, resolves to the address of the leaf; it
appends the steps of the descent and of the leaf to the trace, and their reads to the history. -/
theorem translateLevels_of_descends {above below : List Level} {level : Level} {w : Walk} {steps : List WalkStep}
    {last raw pa : Word} {more : List ReadAnswer} (s : State) (hd : Descends w.va above w.tbl steps last)
    (hpt : Level.pt ∉ above) (ha : leafAddr level raw w.va = some pa)
    (hr : w.reader = .script ((readsOf steps).map ReadEvent.answer ++ .ok raw :: more)) :
    translateLevels (above ++ level :: below) w s =
      (s.setReads (s.reads ++ readsOf (steps ++ [walkStepOf level last (indexAt level w.va) raw]))).setWalker
        (.resolved w.va w.tb pa (w.steps ++ (steps ++ [walkStepOf level last (indexAt level w.va) raw]))) := by
  induction above generalizing w s steps with
  | nil =>
    obtain ⟨rfl, rfl⟩ := hd
    rw [List.nil_append, translateLevels_cons, fetch_of_script level s hr]
    simp only [present_of_leafAddr ha, ha]
    rfl
  | cons l ls ih =>
    obtain ⟨v, rest, rfl, hv, hd⟩ := hd
    rw [List.cons_append, translateLevels_of_leadsDown s hv (List.ne_of_not_mem_cons hpt).symm hr]
    refine (ih (w := w.down l v _) _ hd (List.not_mem_of_not_mem_cons hpt) ha rfl).trans ?_
    simp [State.setReads, readsOf, walkStepOf, Walk.down]

/-- The levels of a walk are those before a level, that level and those below it. -/
theorem walkLevels_eq_levelsBefore_append (level : Level) : ∃ below, walkLevels = levelsBefore level ++ level :: below := by
  cases level <;> exact ⟨_, rfl⟩

/-- PT is before no level. -/
theorem pt_not_mem_levelsBefore (level : Level) : Level.pt ∉ levelsBefore level := by
  cases level <;> decide

/-- An admitted request is not turned away (rule R253). -/
theorem rejects_eq_false_of_admitted {s : State} {va : Word} (h : Admitted s.policy va) : rejects s va = false := by
  rcases rejects_cases s va with ⟨_, hp, hc⟩ | ⟨hr, _⟩
  · exact absurd ((h hp).symm.trans hc) (by decide)
  · exact hr

/-- An admitted request whose reads are answered with a descent to a level and then a leaf of that level is answered with
the address of the leaf, and reads only the entries of that chain (rules R230, R238). -/
theorem exec_translate_of_descends {s : State} {va tb tbl raw pa : Word} {level : Level} {steps : List WalkStep}
    (more : List ReadAnswer) (hstart : s.walker = .start none) (hva : Admitted s.policy va)
    (hd : Descends va (levelsBefore level) (rootBase tb) steps tbl) (ha : leafAddr level raw va = some pa) :
    ∃ t, exec (.translate va tb (.script ((readsOf steps).map ReadEvent.answer ++ .ok raw :: more))) s = .next t ∧
      t.result = some (.report pa (steps ++ [walkStepOf level tbl (indexAt level va) raw])) ∧
      t.reads = readsOf (steps ++ [walkStepOf level tbl (indexAt level va) raw]) := by
  refine ⟨_, exec_translate_of_start va tb _ hstart, ?_⟩
  obtain ⟨below, hlevels⟩ := walkLevels_eq_levelsBefore_append level
  rw [translateFrom, rejects_eq_false_of_admitted hva, hlevels]
  simp only [Bool.false_eq_true, if_false]
  rw [translateLevels_of_descends (w := Request.walk ⟨va, tb, _⟩) _ hd (pt_not_mem_levelsBefore level) ha rfl]
  exact ⟨rfl, rfl⟩

/-- A present PDPT entry with the page size set is a leaf of 1 GiB (rule R213). -/
theorem leafAddr_pdpt {raw : Word} (va : Word) (hp : present raw = true) (hs : pageSize raw = true) :
    leafAddr .pdpt raw va = some (compose1g raw va) := by
  simp [leafAddr, classify_eq, hp, hs]

/-- A present PD entry with the page size set is a leaf of 2 MiB (rule R216). -/
theorem leafAddr_pd {raw : Word} (va : Word) (hp : present raw = true) (hs : pageSize raw = true) :
    leafAddr .pd raw va = some (compose2m raw va) := by
  simp [leafAddr, classify_eq, hp, hs]

/-- Settles O46: three entries lead down to PT, and a present PT entry is a leaf. -/
theorem fourLevelWalkResolvesTo4kPage : Obligations.FourLevelWalkResolvesTo4kPage := by
  intro s va tb e1 e2 e3 e4 more hstart hva h1 h2 h3 hp
  have hd : Descends va (levelsBefore .pt) (rootBase tb) _ _ := ⟨e1, _, rfl, h1, e2, _, rfl, h2, e3, _, rfl, h3, rfl, rfl⟩
  obtain ⟨t, hexec, hresult, hreads⟩ := exec_translate_of_descends more hstart hva hd (leafAddr_pt hp)
  exact ⟨t, _, _, hexec, hresult, compose4k_toNat e4 va, hreads⟩

/-- Settles O47: two entries lead down to PD, and a present PD entry with the huge flag is a leaf. -/
theorem hugePdEntryResolvesTo2mPage : Obligations.HugePdEntryResolvesTo2mPage := by
  intro s va tb e1 e2 e3 more hstart hva h1 h2 hp hs
  have hd : Descends va (levelsBefore .pd) (rootBase tb) _ _ := ⟨e1, _, rfl, h1, e2, _, rfl, h2, rfl, rfl⟩
  obtain ⟨t, hexec, hresult, hreads⟩ := exec_translate_of_descends more hstart hva hd (leafAddr_pd va hp hs)
  exact ⟨t, _, _, hexec, hresult, compose2m_toNat e3 va, hreads⟩

/-- Settles O48: one entry leads down to PDPT, and a present PDPT entry with the huge flag is a leaf. -/
theorem hugePdptEntryResolvesTo1gPage : Obligations.HugePdptEntryResolvesTo1gPage := by
  intro s va tb e1 e2 more hstart hva h1 hp hs
  have hd : Descends va (levelsBefore .pdpt) (rootBase tb) _ _ := ⟨e1, _, rfl, h1, rfl, rfl⟩
  obtain ⟨t, hexec, hresult, hreads⟩ := exec_translate_of_descends more hstart hva hd (leafAddr_pdpt va hp hs)
  exact ⟨t, _, _, hexec, hresult, compose1g_toNat e2 va, hreads⟩

end Sys2Proof.Machine
end

section
/-! The statements of spec/43_walker.md: an entry executed at its level, the steps of the walk, requests and Retire, and
`TRANSLATE` as a whole: how it ends, and its agreement with the steps. -/

namespace Sys2Proof.Machine

open Sys2Proof

/-! ### The ten entry kinds at their level (rules R210 to R219) -/

/-- Settles O18: each kind is executed through `atLevel`, and its effect is the failure of its level. -/
theorem notPresentEntriesFail : Obligations.NotPresentEntriesFail := by
  intro s w raw held
  exact ⟨fun h => atLevel_of_walkAt _ (congrArg (walkAt .pml4) h),
    fun h => atLevel_of_walkAt _ (congrArg (walkAt .pdpt) h),
    fun h => atLevel_of_walkAt _ (congrArg (walkAt .pd) h),
    fun h => atLevel_of_walkAt _ (congrArg (walkAt .pt) h)⟩

/-- Settles O19: each kind is executed through `atLevel`, and its effect is the descent to the table of the entry. -/
theorem tableEntriesDescend : Obligations.TableEntriesDescend := by
  intro s w raw held
  exact ⟨fun h => atLevel_of_walkAt _ (congrArg (walkAt .pml4) h),
    fun h => atLevel_of_walkAt _ (congrArg (walkAt .pdpt) h),
    fun h => atLevel_of_walkAt _ (congrArg (walkAt .pd) h)⟩

/-- Settles O20: each kind is executed through `atLevel`, and base plus offset is their bitwise or. -/
theorem leafEntriesResolve : Obligations.LeafEntriesResolve := by
  intro s w raw
  obtain ⟨⟨_, h4k, _⟩, ⟨_, h2m, _⟩, _, h1g, _⟩ := compositionsTakeHighBitsFromTheEntry raw w.va
  rw [← h1g, ← h2m, ← h4k]
  exact ⟨fun h => atLevel_of_walkAt _ (congrArg (walkAt .pdpt) h),
    fun h => atLevel_of_walkAt _ (congrArg (walkAt .pd) h),
    fun h => atLevel_of_walkAt _ (congrArg (walkAt .pt) h)⟩

/-! ### Steps within a walk (rules R203 to R207) -/

/-- In `AtPML4` the step executes the entry held (rule R203). -/
theorem step_of_atPml4 {s : State} {rest : List HostInput} {w : Walk} {raw : Word} (hi : HostIdle s rest)
    (hw : s.walker = .atPml4 w raw) : step s = exec (decode .pml4 raw) (s.setInputs rest) := by
  rw [step_of_hostIdle hi, walkStep, nextEntry, State.setInputs_walker, hw]

/-- Before the read of a level below PML4, an answered read is recorded and its entry executed (rules R204 to R207). -/
theorem step_of_readOk {s : State} {rest : List HostInput} {level : Level} {w : Walk} {v : Word} {reader : Reader}
    (hi : HostIdle s rest) (hw : s.walker = waitingAt level w) (hl : level ≠ .pml4)
    (hm : memRead w.reader s.mem (entryAddr w.tbl (indexAt level w.va)) = some (.ok v, reader)) :
    step s = exec (decode level v) { s with
      inputs := rest
      reads := s.reads ++ [⟨entryAddr w.tbl (indexAt level w.va), .ok v⟩]
      walker := waitingAt level { w with
        reader := reader
        steps := w.steps ++ [walkStepOf level w.tbl (indexAt level w.va) v] } } := by
  rw [step_of_hostIdle hi, walkStep, nextEntry_of_waitingAt (s := s.setInputs rest) hw hl, fetchAt, fetch,
    State.setInputs_mem, hm]
  rfl

/-- Settles O23: the entry held in `AtPML4`, and the three levels below it. -/
theorem stepExecutesTheFetchedEntry : Obligations.StepExecutesTheFetchedEntry := by
  intro s rest w v reader hi
  exact ⟨step_of_atPml4 hi, fun hw => step_of_readOk (level := .pdpt) hi hw nofun,
    fun hw => step_of_readOk (level := .pd) hi hw nofun, fun hw => step_of_readOk (level := .pt) hi hw nofun⟩

/-! ### Requests and Retire (rules R202, R208, R305, R306) -/

/-- The step whose move is a request presents it. -/
theorem step_of_request {s : State} {r : Request} {rest : List HostInput} (hi : s.inputs = .request r :: rest) :
    step s = .next (presentRequest r (s.setInputs rest)) := by
  rw [step, hi]

/-- The step whose move is Retire retires. -/
theorem step_of_retire {s : State} {rest : List HostInput} (hi : s.inputs = .retire :: rest) :
    step s = .next (retire (s.setInputs rest)) := by
  rw [step, hi]

/-- In `Start` with none taken, the step accepts the request. -/
theorem step_of_request_start {s : State} {r : Request} {rest : List HostInput} (hw : s.walker = .start none)
    (hi : s.inputs = .request r :: rest) : step s = .next (acceptRequest r (s.setInputs rest)) := by
  rw [step_of_request hi, presentRequest_of_start (s := s.setInputs rest) hw]

/-- A request that is not turned away begins with the read of its PML4 entry and an empty history (rule R202). -/
theorem acceptRequest_of_not_rejects {s : State} {r : Request} (h : rejects s r.va = false) :
    acceptRequest r s = fetchRoot r (s.setReads []) := by
  rw [acceptRequest, h]
  rfl

/-- A request that is turned away fails without a read (rule R253). -/
theorem acceptRequest_of_rejects {s : State} {r : Request} (h : rejects s r.va = true) :
    acceptRequest r s = failInvalidInput r.va r.tb (s.setReads []) := by
  rw [acceptRequest, h]
  rfl

/-- Settles O24: an admitted request is accepted, and its read is answered, refused or left open. -/
theorem startStepReadsThePml4Entry : Obligations.StartStepReadsThePml4Entry := by
  intro s va tb reader rest hw hi hva
  have hadmit : rejects (s.setInputs rest) va = false := rejects_eq_false_of_admitted (s := s.setInputs rest) hva
  rw [step_of_request_start hw hi, acceptRequest_of_not_rejects hadmit, fetchRoot, fetch]
  simp only [Request.walk_reader, Request.walk_tbl, Request.walk_va, State.setReads_mem, State.setInputs_mem, indexAt]
  refine ⟨fun v reader' hm => ?_, fun e reader' hm => ?_, fun hm => ?_⟩ <;> rw [hm] <;> rfl

/-- Settles O28: neither a request nor `TRANSLATE` is accepted outside `Start` with none taken. -/
theorem requestWhileBusyHasNoEffect : Obligations.RequestWhileBusyHasNoEffect := by
  intro s va tb reader hw
  refine ⟨exec_translate_of_not_start va tb reader hw, fun rest hi => ?_⟩
  rcases presentRequest_cases ⟨va, tb, reader⟩ (s.setInputs rest) with ⟨hstart, _⟩ | ⟨_, h⟩
  · exact absurd hstart hw
  · rw [step_of_request hi, h]
    rfl

/-- A terminal walker has no step of its own (rule R208). -/
theorem step_of_terminal {s : State} {rest : List HostInput} (ht : s.walker.Terminal) (hi : HostIdle s rest) :
    step s = .next (s.setInputs rest) := by
  rw [step_of_hostIdle hi, walkStep, nextEntry, State.setInputs_walker]
  cases hw : s.walker with
  | resolved va tb pa steps => rfl
  | failed va tb kind level raw err steps => rfl
  | _ => rw [hw] at ht; exact ht.elim

/-- Settles O29: a terminal walker has no step of its own, and Retire clears the walk there and only there. -/
theorem resultIsHeldUntilRetired : Obligations.ResultIsHeldUntilRetired := by
  intro s rest
  refine ⟨step_of_terminal, fun ht hi => ?_, fun ht hi => ?_⟩ <;> rw [step_of_retire hi] <;>
    rcases retire_cases (s.setInputs rest) with ⟨ht', h⟩ | ⟨ht', h⟩
  · rw [h]
    rfl
  · exact absurd ht ht'
  · exact absurd ht' ht
  · rw [h]
    rfl

/-! ### How a translation ends (rules R236, R237, R250 to R253) -/

/-- How the loop of rule R231 ends: before a read that is not answered, on an error of the reader, or on the last entry
recorded. -/
inductive LoopEnds : State → Prop
  /-- The read of a level is not answered (rule R303). -/
  | waits {level : Level} {w : Walk} {s : State} : LoopEnds (s.setWalker (waitingAt level w))
  /-- The read of a level is answered with an error (rule R252). -/
  | readError {level : Level} {w : Walk} {s t : State} (hb : w.Before level s.reads)
      (hf : fetch level w s = .failed t) : LoopEnds t
  /-- The entry read last is not present (rule R251). -/
  | notPresent {level : Level} {w : Walk} {raw : Word} {s : State} (hr : w.Recorded level raw s.reads)
      (hp : present raw = false) : LoopEnds (failNotPresent level raw w s)
  /-- The entry read last is a leaf (rules R213, R216, R219). -/
  | leaf {level : Level} {w : Walk} {raw pa : Word} {s : State} (hr : w.Recorded level raw s.reads)
      (ha : leafAddr level raw w.va = some pa) : LoopEnds (resolve pa w s)

/-- An entry recorded that leads down puts the walk before the read of the level below. -/
theorem Walk.Recorded.before {level : Level} {w : Walk} {raw : Word} {reads : List ReadEvent}
    (hr : w.Recorded level raw reads) (hl : level ≠ .pt) (hd : LeadsDown level raw) :
    { w with tbl := nextBase raw }.Before (levelBelow level) reads := by
  obtain ⟨above, habove, hsteps, hreads⟩ := hr
  refine ⟨?_, hreads⟩
  rw [levelsBefore_levelBelow hl, hsteps]
  exact habove.snoc hd

/-- The loop over some levels, begun before the read of `level`, ends as loops do. -/
def LoopEndsFrom (level : Level) (levels : List Level) : Prop :=
  ∀ (w : Walk) (s : State), w.Before level s.reads → LoopEnds (translateLevels levels w s)

/-- One turn of the loop: it ends at this level, or the levels below end it. -/
theorem loopEndsFrom_cons {level : Level} {below : List Level}
    (hbelow : level ≠ .pt → LoopEndsFrom (levelBelow level) below) : LoopEndsFrom level (level :: below) := by
  intro w s hb
  rw [translateLevels_cons]
  rcases hf : fetch level w s with _ | t | ⟨raw, w', t⟩ <;> simp only
  · exact .waits
  · exact .readError hb hf
  · have hr := hb.recorded hf
    cases hp : present raw with
    | false => exact .notPresent hr hp
    | true =>
      cases ha : leafAddr level raw w'.va with
      | some pa => exact .leaf hr ha
      | none =>
        have hl : level ≠ .pt := by
          rintro rfl
          rw [leafAddr_pt hp] at ha
          cases ha
        exact hbelow hl _ t (hr.before hl (leadsDown_of_leafAddr hp ha))

/-- The four levels of a walk. -/
theorem loopEndsFrom_walkLevels : LoopEndsFrom .pml4 walkLevels :=
  loopEndsFrom_cons fun _ => loopEndsFrom_cons fun _ => loopEndsFrom_cons fun _ => loopEndsFrom_cons fun h => absurd rfl h

/-- A translation is turned away as non-canonical, or ends as the loop does. -/
theorem translateFrom_cases (r : Request) (s : State) :
    (s.policy = .reject ∧ isCanonical r.va = false ∧
      translateFrom r s = failInvalidInput r.va r.tb (s.setReads [])) ∨
    LoopEnds (translateFrom r s) := by
  rw [translateFrom]
  rcases rejects_cases s r.va with ⟨h, hp, hc⟩ | ⟨h, _⟩ <;> rw [h]
  · exact .inl ⟨hp, hc, rfl⟩
  · exact .inr (loopEndsFrom_walkLevels r.walk (s.setReads []) ⟨⟨rfl, rfl⟩, rfl⟩)

/-- Before the read of a level there is a step and a read for each level before it. -/
theorem Walk.Before.lengths {level : Level} {w : Walk} {reads : List ReadEvent} (hb : w.Before level reads) :
    w.steps.length = levelCode level ∧ reads.length = levelCode level := by
  obtain ⟨hd, rfl⟩ := hb
  have hsteps := hd.length.trans (levelsBefore_length level)
  exact ⟨hsteps, (List.length_map _).trans hsteps⟩

/-- With the entry of a level recorded there is a step and a read for it too, its step the last. -/
theorem Walk.Recorded.lengths {level : Level} {w : Walk} {raw : Word} {reads : List ReadEvent}
    (hr : w.Recorded level raw reads) :
    w.steps.length = levelCode level + 1 ∧ reads.length = levelCode level + 1 ∧
      w.steps.getLast? = some (walkStepOf level w.tbl (indexAt level w.va) raw) := by
  obtain ⟨above, hd, hsteps, rfl⟩ := hr
  have habove := hd.length.trans (levelsBefore_length level)
  simp [readsOf, hsteps, habove]

/-- A leaf is of one of the three leaf kinds, each at its level (rule R148). -/
theorem classify_of_leafAddr {level : Level} {raw va pa : Word} (h : leafAddr level raw va = some pa) :
    (classify level raw = .pdptePage1g ∧ levelCode level + 1 = 2) ∨
      (classify level raw = .pdePage2m ∧ levelCode level + 1 = 3) ∨
      (classify level raw = .ptePage4k ∧ levelCode level + 1 = 4) := by
  have hlevel := classify_level level raw
  rw [leafAddr] at h
  generalize classify level raw = kind at h hlevel ⊢
  subst hlevel
  split at h <;> cases h
  · exact .inl ⟨rfl, rfl⟩
  · exact .inr (.inl ⟨rfl, rfl⟩)
  · exact .inr (.inr ⟨rfl, rfl⟩)

/-- A failed fetch has the result ReadFailure of its level, with the trace so far and one read more (rule R252). -/
theorem fetch_failed_result {level : Level} {w : Walk} {s t : State} (h : fetch level w s = .failed t) :
    (∃ e, t.result = some (.error .readFailure (some level) w.steps none (some e))) ∧
      t.reads.length = s.reads.length + 1 := by
  rcases fetch_cases level w s with ⟨_, h'⟩ | ⟨e, _, _, h'⟩ | ⟨_, _, _, h'⟩ <;> rw [h'] at h <;> cases h
  exact ⟨⟨e, rfl⟩, List.length_append⟩

/-- Waiting for a read is not the end of a translation. -/
theorem not_terminal_waitingAt (level : Level) (w : Walk) : ¬ (waitingAt level w).Terminal := by
  cases level <;> exact id

/-- A reader that does not answer `n` reads is a script of fewer answers. -/
theorem exists_script_of_not_answersReads {n : Nat} {reader : Reader} (h : ¬ answersReads n reader) :
    ∃ answers, reader = .script answers ∧ answers.length < n := by
  cases reader with
  | memory missing => exact absurd trivial h
  | script answers => exact ⟨answers, rfl, Nat.not_le.mp h⟩

/-- Settles O45: the five ways a translation ends, the counts from the levels before its last read. -/
theorem outcomesHaveTheirReadAndStepCounts : Obligations.OutcomesHaveTheirReadAndStepCounts := by
  intro s t va tb reader hstart hexec
  rw [exec_translate_of_start va tb reader hstart] at hexec
  cases hexec
  rcases translateFrom_cases ⟨va, tb, reader⟩ s with ⟨hp, hc, ht⟩ | hends
  · rw [ht]
    exact ⟨hp, hc, rfl, rfl, rfl, rfl⟩
  · have hanswers : ¬ (translateFrom ⟨va, tb, reader⟩ s).walker.Terminal →
        ∃ answers, reader = .script answers ∧ answers.length < 4 := fun hlive =>
      exists_script_of_not_answersReads fun hr => hlive (translateFrom_terminal s hr)
    generalize translateFrom ⟨va, tb, reader⟩ s = t at hends hanswers
    cases hends with
    | @waits level w u =>
      have hlive : ¬ (u.setWalker (waitingAt level w)).walker.Terminal := not_terminal_waitingAt level w
      rw [State.result_eq_none hlive]
      exact ⟨hlive, hanswers hlive⟩
    | readError hb hf =>
      obtain ⟨hsteps, hreads⟩ := hb.lengths
      obtain ⟨⟨e, hresult⟩, hread⟩ := fetch_failed_result hf
      rw [hresult]
      exact ⟨hsteps, by rw [hread, hreads], rfl, rfl⟩
    | notPresent hr _ =>
      obtain ⟨hsteps, hreads, hlast⟩ := hr.lengths
      exact ⟨hsteps, hreads, by rw [hlast]; rfl, rfl⟩
    | leaf hr ha =>
      obtain ⟨hsteps, hreads, hlast⟩ := hr.lengths
      refine ⟨_, hlast, hreads.trans hsteps.symm, ?_⟩
      rw [hsteps]
      exact classify_of_leafAddr ha

/-! ### Addresses that are not canonical (rules R202, R253) -/

/-- Under `truncate` no request is turned away. -/
theorem rejects_of_truncate {s : State} (hp : s.policy = .truncate) (va : Word) : rejects s va = false :=
  rejects_eq_false_of_admitted fun hr => by rw [hp] at hr; cases hr

/-- Under `reject` a non-canonical address is turned away. -/
theorem rejects_of_reject {s : State} {va : Word} (hp : s.policy = .reject) (hc : isCanonical va = false) :
    rejects s va = true := by
  rw [rejects, hp, hc]
  rfl

/-- The read of a request taken gives no InvalidInput: it is answered, waits, or ends in ReadFailure. -/
theorem fetchRoot_result_ne_invalidInput (r : Request) (s : State) {level : Option Level} {steps : List WalkStep}
    {raw : Option Word} {err : Option HostReadError} :
    (fetchRoot r s).result ≠ some (.error .invalidInput level steps raw err) := by
  rcases fetchRoot_cases r s with ⟨_, h⟩ | ⟨t, hf, h⟩ | ⟨v, w, t, _, h⟩ <;> rw [h]
  · exact nofun
  · obtain ⟨⟨e, hresult⟩, _⟩ := fetch_failed_result hf
    rw [hresult]
    exact nofun
  · exact nofun

/-- Settles O27: the request is turned away by its policy and address; under `truncate` the outcomes of O45 and the read
of a request taken leave no InvalidInput. -/
theorem nonCanonicalRequestFollowsThePolicy : Obligations.NonCanonicalRequestFollowsThePolicy := by
  refine ⟨fun s va tb reader rest hw hp hc => ⟨?_, fun hi => ?_⟩, ?_⟩
  · rw [exec_translate_of_start va tb reader hw, translateFrom, rejects_of_reject hp hc]
    rfl
  · have hreject : rejects (s.setInputs rest) va = true := rejects_of_reject (s := s.setInputs rest) hp hc
    rw [step_of_request_start hw hi, acceptRequest_of_rejects hreject]
    rfl
  · rintro s t va tb reader level steps raw err hw hp (hexec | ⟨rest, hi, hstep⟩) hresult
    · have houtcome := outcomesHaveTheirReadAndStepCounts s t va tb reader hw hexec
      rw [hresult] at houtcome
      cases level with
      | some l => exact houtcome
      | none =>
        obtain ⟨hreject, _⟩ := houtcome
        rw [hp] at hreject
        cases hreject
    · have hadmit : rejects (s.setInputs rest) va = false := rejects_of_truncate (s := s.setInputs rest) hp va
      rw [step_of_request_start hw hi, acceptRequest_of_not_rejects hadmit] at hstep
      cases hstep
      exact fetchRoot_result_ne_invalidInput _ _ hresult

/-! ### `TRANSLATE` and the steps (rules R230, R231, R239) -/

/-- The moves to come written over themselves. -/
theorem State.setInputs_eq_self {s : State} {inputs : List HostInput} (hi : s.inputs = inputs) :
    s.setInputs inputs = s := by
  rw [← hi]
  rfl

/-- A terminal walker stays as it is when no move is to come. -/
theorem runSteps_of_terminal {s : State} (n : Nat) (ht : s.walker.Terminal) (hi : s.inputs = []) :
    runSteps n s = .next s :=
  runSteps_of_fixed n ((step_of_terminal ht (.inl ⟨hi, rfl⟩)).trans (congrArg _ (State.setInputs_eq_self hi)))

/-- With no move to come, `n` steps from before the read of `level` leave what the loop over `levels` leaves, whatever
the walker the loop begins from. -/
def StepsAgree (n : Nat) (level : Level) (levels : List Level) : Prop :=
  ∀ (w : Walk) (s : State), s.inputs = [] →
    runSteps n (s.setWalker (waitingAt level w)) = .next (translateLevels levels w s)

/-- A step that executes the entry which the loop has fetched, and the steps that agree with the loop below it, agree
with the turn of the loop. -/
theorem runSteps_of_fetched {n : Nat} {level : Level} {below : List Level} {w w' : Walk} {raw : Word} {s t u : State}
    {x : Walker} (hf : fetch level w s = .fetched raw w' t) (hi : t.inputs = []) (hx : walkAt level x = some w')
    (hstep : step u = exec (decode level raw) (t.setWalker x))
    (hbelow : level ≠ .pt → StepsAgree n (levelBelow level) below) :
    runSteps (n + 1) u = .next (translateLevels (level :: below) w s) := by
  obtain ⟨v, hexec⟩ := exec_decode_next (s := t.setWalker x) raw hx
  rw [runSteps_succ (hstep.trans hexec), translateLevels_cons, hf]
  rcases exec_decode_cases (s := t.setWalker x) hx hexec with ⟨hp, rfl⟩ | ⟨pa, ha, rfl⟩ | ⟨hl, hd, rfl⟩
  · simp only [hp]
    exact runSteps_of_terminal n trivial hi
  · simp only [present_of_leafAddr ha, ha]
    exact runSteps_of_terminal n trivial hi
  · simp only [hd.1, leafAddr_of_leadsDown hd hl]
    exact hbelow hl _ t hi

/-- One turn of the loop below PML4 is one step. -/
theorem stepsAgree_cons {n : Nat} {level : Level} {below : List Level} (hl : level ≠ .pml4)
    (hbelow : level ≠ .pt → StepsAgree n (levelBelow level) below) : StepsAgree (n + 1) level (level :: below) := by
  intro w s hi
  have hidle : HostIdle (s.setWalker (waitingAt level w)) [] := .inl ⟨hi, rfl⟩
  rcases fetch_cases level w s with ⟨hm, hf⟩ | ⟨e, reader, hm, hf⟩ | ⟨v, reader, hm, hf⟩
  · obtain ⟨hstep, _⟩ := step_of_unanswered hidle rfl hl hm
    rw [translateLevels_cons, hf]
    exact runSteps_of_fixed (n + 1) (hstep.trans (congrArg _ (State.setInputs_eq_self hi)))
  · rw [runSteps_succ (step_of_readError hidle rfl hl hm), translateLevels_cons, hf, ← hi]
    exact runSteps_of_terminal n trivial hi
  · refine runSteps_of_fetched hf hi (walkAt_waitingAt _ hl) ?_ hbelow
    rw [step_of_readOk hidle rfl hl hm, ← hi]
    rfl

/-- The three levels below PML4 are three steps. -/
theorem stepsAgree_pdpt : StepsAgree 3 .pdpt [.pdpt, .pd, .pt] :=
  stepsAgree_cons nofun fun _ => stepsAgree_cons nofun fun _ => stepsAgree_cons nofun fun h => absurd rfl h

/-- Once the request is taken, four steps leave what the loop over the four levels leaves: the entry read at PML4 is
executed in the step after its read. -/
theorem runSteps_fetchRoot (r : Request) {s : State} (hi : s.inputs = []) :
    runSteps 4 (fetchRoot r s) = .next (translateLevels walkLevels r.walk s) := by
  rcases fetch_cases .pml4 r.walk s with ⟨hm, hf⟩ | ⟨e, reader, _, hf⟩ | ⟨v, reader, _, hf⟩
  · rw [fetchRoot, walkLevels, translateLevels_cons, hf]
    obtain ⟨hstep, _⟩ := step_of_unanswered_root (s := s.setWalker (.start (some r))) (.inl ⟨hi, rfl⟩) rfl hm
    exact runSteps_of_fixed 4 (hstep.trans (congrArg _ (State.setInputs_eq_self hi)))
  · rw [fetchRoot, walkLevels, translateLevels_cons, hf]
    exact runSteps_of_terminal 4 trivial hi
  · refine runSteps_of_fetched (x := .atPml4 _ v) hf hi rfl ?_ fun _ => stepsAgree_pdpt
    rw [fetchRoot, hf]
    refine (step_of_atPml4 (.inl ⟨?_, rfl⟩) rfl).trans (congrArg _ (State.setInputs_eq_self ?_)) <;> exact hi

/-- Settles O43: the first step takes the request or turns it away, and the other four are the loop. -/
theorem translateEqualsTheSteps : Obligations.TranslateEqualsTheSteps := by
  intro s va tb reader hw hi
  have hconsumed : ({ s with inputs := [.request ⟨va, tb, reader⟩] } : State).setInputs [] = s :=
    State.setInputs_eq_self hi
  have hstep := step_of_request_start (s := { s with inputs := [.request ⟨va, tb, reader⟩] }) hw rfl
  rw [hconsumed] at hstep
  rw [runSteps_succ hstep, exec_translate_of_start va tb reader hw, acceptRequest, translateFrom]
  split
  · exact runSteps_of_terminal 4 trivial hi
  · exact runSteps_fetchRoot _ hi

end Sys2Proof.Machine
end
